-- ==== Sys2Proof/Word.lean ====
section
/-! DEFINITION. The word types of the block (00_scope.md rule R10): a byte, the 16-bit word of a request, of the
checksum and of a register, and the 32-bit millisecond time. -/

namespace Sys2Proof

/-- `u8` of rule R10. -/
abbrev Byte := BitVec 8

/-- `u16` of rule R10: a request word, a checksum value, a register value. -/
abbrev Word := BitVec 16

/-- `u32` of rules R10 and R34: the millisecond time input. -/
abbrev Millis := BitVec 32

end Sys2Proof
end

