-- ==== Sys2Proof/Config.lean ====
section
/-! DEFINITION. The implementation parameters of 00_scope.md rule R8, each at the value the rule calls normative; the
five header-flag masks as an argument with the constraint of the same rule; and the three OPEN parameters, opaque. -/

namespace Sys2Proof

/-- The five header-flag masks of 30_encoding.md rule R79. A definition that reads a header-flags byte takes them as an
argument, so that a claim can be made for every admissible choice (92_eei_decisions.md D23). -/
structure Masks where
  epc : Byte
  tid : Byte
  rssi : Byte
  devId : Byte
  mem : Byte
deriving DecidableEq, Repr

namespace Config

/-- `START_MARK`, byte 0 of every frame. -/
def startMark : Byte := 0xBB
/-- `CMD_LEN`, the length byte of the command frame. -/
def cmdLen : Byte := 0x02
/-- `CMD_CODE`, "extended inventory". -/
def cmdCode : Byte := 0x21
/-- `CMD_PARAM`, an opaque constant to the block (rule R76). -/
def cmdParam : Byte := 0x0C
/-- `RESP_TAG`, the tag-notification code. -/
def respTag : Byte := 0xE0
/-- `CRC_POLY`. -/
def crcPoly : Word := 0x1021
/-- `CRC_INIT_VAL`. -/
def crcInitVal : Word := 0xFFFF
/-- `CRC_XOROUT`. -/
def crcXorOut : Word := 0xFFFF
/-- `MAX_LEN`, the largest accepted length byte. -/
def maxLen : Nat := 64
/-- `WINDOW_MS`, the scan window. -/
def windowMs : Nat := 200
/-- `IDLE_MS`, the host loop's idle delay (44_scan_cycle.md rule R207). -/
def idleMs : Nat := 100
/-- `DEVID_LEN`. -/
def devIdLen : Nat := 4
/-- `RSSI_LEN`. -/
def rssiLen : Nat := 2
/-- `RSSI_DIV`. -/
def rssiDiv : Nat := 100
/-- `FBUF_CAP = MAX_LEN + 4`. -/
def fbufCap : Nat := maxLen + 4
/-- `TIMER_BITS`, the width of `Millis`. -/
def timerBits : Nat := 32

/-- The masks of this spec (rules R8 and R79). -/
def masks : Masks := { epc := 0x01, tid := 0x02, rssi := 0x04, devId := 0x08, mem := 0x10 }

/-- `SEP_TEXT`, OPEN (rule R8): no value is known to any proof. Log 12. -/
opaque sepText : List Char

/-- `LINE_END`, OPEN (rule R8): no value is known to any proof. Log 12. -/
opaque lineEnd : List Char

/-- `REG_BASE`, OPEN (rule R8, 20_memory.md rule R58): no rule reads it. Log 12. -/
opaque regBase : Nat

/-- Rule R9: the constraint on the parameters under which the rules of the spec hold. -/
abbrev ParamsOk : Prop :=
  1 ≤ maxLen ∧ maxLen ≤ 251 ∧ maxLen + 4 ≤ fbufCap ∧ 0 < windowMs ∧ windowMs < 2 ^ timerBits

end Config

/-- A mask of exactly one bit. -/
def Masks.isOneBit (b : Byte) : Bool := b != 0 && b &&& (b - 1) == 0

/-- Rule R8's constraint on the five masks: each a single bit, pairwise distinct, EPC, TID and RSSI together `0x07`,
device identifier and user memory inside `0xF8`. -/
def Masks.admissible (m : Masks) : Bool :=
  Masks.isOneBit m.epc && Masks.isOneBit m.tid && Masks.isOneBit m.rssi && Masks.isOneBit m.devId &&
  Masks.isOneBit m.mem && m.epc ||| m.tid ||| m.rssi == 0x07 && m.epc != m.tid && m.epc != m.rssi && m.tid != m.rssi &&
  m.devId &&& 0x07 == 0 && m.mem &&& 0x07 == 0 && m.devId != m.mem

end Sys2Proof
end

