-- ==== Sys2Proof/Syntax.lean ====
section
/-! DEFINITION. The instructions of the block (00_scope.md rule R2): the host's request words and the wire messages the
block emits and accepts, one constructor per row of spec/opcode_table.json; their encodings, in the two domains of
30_encoding.md; and the reasons a decoder rejects an encoding. -/

namespace Sys2Proof

/-- One instruction: a host request (30_encoding.md rule R71) or a wire message (rules R76 to R86). -/
inductive Instr where
  /-- `CRC_INIT`, 40_checksum.md rule R101. -/
  | crcInit
  /-- `CRC_UPDATE b`, rule R102. -/
  | crcUpdate (b : Byte)
  /-- `CRC_FINAL`, rule R103. -/
  | crcFinal
  /-- `ENCODE`, 41_encoder.md rule R121. -/
  | encode
  /-- `SCAN`, 44_scan_cycle.md rule R200. -/
  | scan
  /-- `ILLEGAL`, any other request word, by its three fields; 60_exceptions.md rule R227. -/
  | illegal (data : Byte) (rsv op : BitVec 4)
  /-- `CMD_INVENTORY_EXT`, the one command frame; 41_encoder.md rules R120 and R124. -/
  | cmdInventoryExt
  /-- `RSP_TAG_NOTIFY`, a tag notification: `payload` is the header flags byte and what follows it up to the trailer
  (indices `3 .. L+1`, so `L = payload.length + 1`), then the trailer; 43_decoder.md rule R170. -/
  | rspTagNotify (payload : List Byte) (crcHi crcLo : Byte)
  /-- `RSP_EMPTY`, a response with `L = 0`; rule R172. -/
  | rspEmpty (crcHi crcLo : Byte)
  /-- `RSP_OTHER`, a response whose code is not `0xE0`; `rest` is indices `3 .. L+1`; rule R173. -/
  | rspOther (code : Byte) (rest : List Byte) (crcHi crcLo : Byte)
  /-- `RSP_OVERSIZE`, a start marker and a length above `MAX_LEN`; 42_reader.md rule R147. -/
  | rspOversize (len : Byte)
deriving DecidableEq, Repr

/-- An encoded instruction: a request word on the request port, or a frame on one of the two directions of the wire. The
domains are apart: `BB 02 21 0C 16 AB` sent is the command frame, received it is a response of code `0x21`. -/
inductive Encoding where
  /-- A 16-bit request word (30_encoding.md rule R70). -/
  | request (w : Word)
  /-- The bytes of a frame the block sends (rule R76). -/
  | command (bytes : List Byte)
  /-- The bytes of a frame the block receives (rules R77 to R86). -/
  | response (bytes : List Byte)
deriving DecidableEq, Repr

/-- Why a decoder rejects wire bytes. A request word is never rejected (rule R73). -/
inductive Reject where
  /-- A sent frame other than the one command frame of rule R76. -/
  | notTheCommandFrame
  /-- A received frame that does not open with the start marker (rule R78). -/
  | notStartMarker
  /-- Fewer bytes than the length byte announces (rule R84), or none. -/
  | truncated
  /-- `n` bytes after the frame's end (rule R84). -/
  | trailingBytes (n : Nat)
deriving DecidableEq, Repr

/-- The six bytes of the command buffer `CMD[0..5]` (10_state.md rule R24, 30_encoding.md rule R76). -/
structure CmdFrame where
  start : Byte
  length : Byte
  code : Byte
  param : Byte
  crcHi : Byte
  crcLo : Byte
deriving DecidableEq, Repr

/-- The frame in wire order, index 0 first. -/
def CmdFrame.bytes (c : CmdFrame) : List Byte := [c.start, c.length, c.code, c.param, c.crcHi, c.crcLo]

end Sys2Proof
end

