-- ==== Sys2Proof/Machine/Crc.lean ====
section
/-! DEFINITION. The checksum function of 40_checksum.md rule R100 and the command frame of 41_encoder.md rule R120, as
pure functions: the decoder, the encoder and the checksum requests share them. -/

namespace Sys2Proof.Machine

/-- One round of rule R100: the top bit is tested before the shift, the shift loses it and brings in a 0. -/
def crcRound (acc : Word) : Word :=
  if acc.msb then (acc <<< 1) ^^^ Config.crcPoly else acc <<< 1

/-- `n` rounds. -/
def crcRounds : Nat → Word → Word
  | 0, acc => acc
  | n + 1, acc => crcRounds n (crcRound acc)

/-- `crc_step(acc, b)` of rule R100: exclusive-or into the high byte, then eight rounds. -/
def crcStep (acc : Word) (b : Byte) : Word :=
  crcRounds 8 (acc ^^^ (b.setWidth 16 <<< 8))

/-- The accumulator after the bytes of `s`, from `acc`. -/
def crcFold (acc : Word) (s : List Byte) : Word := s.foldl crcStep acc

/-- `checksum(s)` of rule R100. -/
def checksum (s : List Byte) : Word := crcFold Config.crcInitVal s ^^^ Config.crcXorOut

/-- The high byte of a word (rule R51: first on the wire). -/
def hiByte (w : Word) : Byte := w.extractLsb' 8 8

/-- The low byte of a word (rule R51: second on the wire). -/
def loByte (w : Word) : Byte := w.extractLsb' 0 8

/-- `encode()` of rule R120: the checksum covers the code and the parameter only, with a value of its own. -/
def commandFrame : CmdFrame :=
  let crc := checksum [Config.cmdCode, Config.cmdParam]
  { start := Config.startMark, length := Config.cmdLen, code := Config.cmdCode, param := Config.cmdParam,
    crcHi := hiByte crc, crcLo := loByte crc }

end Sys2Proof.Machine
end

