-- ==== Sys2Proof/Machine/State.lean ====
section
/-! DEFINITION. The state of the block and of the environment it reaches through its ports (10_state.md), as plain data;
the reset state (rule R42); and the reasons a step can stop. -/

namespace Sys2Proof.Machine

/-- `PHASE` (rule R32): which step the block takes next. -/
inductive Phase where
  | idle
  | drain
  | send
  | hunt
  | len
  | body
  | decode
deriving DecidableEq, Repr

/-- The outcome codes of 60_exceptions.md rule R221 that are ever written. -/
inductive CycleOutcome where
  /-- `0` NONE: no cycle since reset, or a cycle in progress. -/
  | none
  /-- `1` DECODED. -/
  | decoded
  /-- `2` NO_FRAME. -/
  | noFrame
  /-- `3` PARTIAL_TIMEOUT. -/
  | partialTimeout
  /-- `4` IGNORED. -/
  | ignored
  /-- `5` ABORTED. -/
  | aborted
deriving DecidableEq, Repr

/-- The sink records of 43_decoder.md rule R181. -/
inductive Record where
  /-- The per-frame separator. -/
  | sep
  /-- An EPC, first byte first. -/
  | epc (s : List Byte)
  /-- A TID, first byte first. -/
  | tid (s : List Byte)
  /-- An RSSI reading: `raw : s16`, the signed value of the 16 bits (`BitVec.toInt`); in dBm it is `raw / 100`. -/
  | rssi (raw : Word)
deriving DecidableEq, Repr

/-- One register read of the host: the index it gave and the value it got (rule R30). Log 13. -/
structure RegRead where
  index : BitVec 4
  value : Word
deriving DecidableEq, Repr

/-- Where the host's repeat loop of 44_scan_cycle.md rule R207 stands. Log 14. -/
inductive LoopState where
  /-- About to issue the first `SCAN`. -/
  | start
  /-- A `SCAN` is issued; waiting for `STATUS.READY = 1` after its acceptance. -/
  | waiting
  /-- Waiting `IDLE_MS` since its own clock showed `since`. -/
  | idling (since : Millis)
deriving DecidableEq, Repr

/-- One move of one agent of rule R20. Log 1. -/
inductive Event where
  /-- The block takes one step. -/
  | codec
  /-- The host issues a request word (rules R70, R210). -/
  | hostRequest (w : Word)
  /-- The host reads register `i` (rules R30, R31). -/
  | hostRead (i : BitVec 4)
  /-- The host's repeat loop looks at its own clock and at `STATUS` once (rule R207). -/
  | hostLoop (clock : Millis)
  /-- The host asserts reset (70_reset_and_hazards.md rule R250). -/
  | hostReset
  /-- The transport environment appends a received byte (rule R33). -/
  | rxByte (b : Byte)
  /-- The timer environment advances the time input by `d` milliseconds, wrapping (rule R34). -/
  | tick (d : Millis)
deriving DecidableEq, Repr

/-- A byte-addressed memory as a list of cells in one canonical form: addresses strictly rising, and no cell that holds
the value an unlisted address reads as, which is `0x00` (the reset value of every byte of `FB`, rule R39). -/
abbrev Memory := List Host.Cell

/-- The block, the ports it reaches, and what the other agents hold. -/
structure State where
  /-- `CRC_ACC`, rule R22. -/
  crcAcc : Word
  /-- `RESULT`, rule R23. -/
  result : Word
  /-- `CMD[0..5]`, rule R24. -/
  cmd : CmdFrame
  /-- `STATUS.ILLEGAL`, rule R26. (`STATUS.READY` is `PHASE = IDLE`, rule R32: not stored twice. Log 5.) -/
  illegal : Bool
  /-- `STATUS.OUTCOME`, rule R27. -/
  outcome : CycleOutcome
  /-- `STATUS.OVERSIZE_CNT`, rule R28. -/
  oversizeCnt : Byte
  /-- `PHASE`, rule R32. -/
  phase : Phase
  /-- `L`, rule R36. -/
  len : Byte
  /-- `IDX`, rule R37. -/
  idx : Byte
  /-- `T0`, rule R38. -/
  t0 : Millis
  /-- `FB[0..67]`, rule R39. -/
  fb : Memory
  /-- `RXQ`, oldest first, rule R33. -/
  rxq : List Byte
  /-- `TXS`, every byte written, in order, rule R33. -/
  txs : List Byte
  /-- `Now()`, rule R34. -/
  now : Millis
  /-- `SINK`, every record emitted, in order, rule R35. -/
  sink : List Record
  /-- The request words the host has issued and holds, oldest first; the first is on the request port with its valid
  signal (rules R70, R210). Log 2. -/
  reqs : List Word
  /-- What the host's register reads returned, in order. The model's own. Log 13. -/
  reads : List RegRead
  /-- The host's repeat loop. The model's own. Log 14. -/
  loop : LoopState
  /-- Which agent moves at each coming step, oldest first; when it is empty the block moves. The model's own. Log 1. -/
  schedule : List Event
deriving DecidableEq, Repr

/-- Why the machine stops. Both are unreachable from a state that meets the invariant of rule R43. -/
inductive Fault where
  /-- A body byte would be written at `FB[index]` with `index >= FBUF_CAP`, an address that does not exist
  (93_implementation_defined.md I6). Raised by the reader's `BODY` step. Safe: the machine stops. Log 7. -/
  | frameBufferWrite (index : Nat)
  /-- A frame of `size > FBUF_CAP` bytes would be read from `FB` (93_implementation_defined.md I3). Raised by the decode
  step. Safe: the machine stops. Log 7. -/
  | frameBufferRead (size : Nat)
deriving DecidableEq, Repr

/-- Why an instruction is refused. -/
inductive Refusal where
  /-- An instruction without a meaning yet; raised by its arm of `exec` only. No arm is left with it. Safe. -/
  | notModelled (mnemonic : String)
deriving DecidableEq, Repr

/-- What stands before the block in its step: an instruction, with the state after it is taken from where it stands (the
request port, the transport, `CMD` or `FB`); an action that is no instruction, with the state it leaves; or a stop. -/
inductive Fetched where
  | instr (i : Instr) (s : State)
  | action (s : State)
  | stop (f : Fault)
deriving DecidableEq, Repr

/-- The machine right after reset: the block as rule R42 says; the environment, which rule R42 gives no value, with
nothing received, sent, emitted, issued or scheduled, at time 0 (log 3). -/
def State.reset : State where
  crcAcc := Config.crcInitVal
  result := 0
  cmd := { start := 0, length := 0, code := 0, param := 0, crcHi := 0, crcLo := 0 }
  illegal := false
  outcome := .none
  oversizeCnt := 0
  phase := .idle
  len := 0
  idx := 0
  t0 := 0
  fb := []
  rxq := []
  txs := []
  now := 0
  sink := []
  reqs := []
  reads := []
  loop := .start
  schedule := []

end Sys2Proof.Machine
end

