-- ==== Sys2Proof/Machine/Ops.lean ====
section
/-! DEFINITION. The named operations over memory, the transport, the sink and the registers that the meanings share
(00_scope.md rule R12), and the block's one way of ending a cycle, `finish` (44_scan_cycle.md rule R206): it stands where
a processor's trap entry would, for the block has no traps and no return from one (60_exceptions.md rules R230, R231). -/

namespace Sys2Proof.Machine

/-- What an address that no cell lists reads as. -/
def unlistedByte : Byte := 0

/-- The byte at an address. -/
def memRead : Memory → Nat → Byte
  | [], _ => unlistedByte
  | (x, v) :: r, a => if a = x then v else memRead r a

/-- One cell in front of a memory, unless it holds what an unlisted address reads as. -/
def memCons (a : Nat) (b : Byte) (m : Memory) : Memory := if b = unlistedByte then m else (a, b) :: m

/-- The memory with one byte written; the canonical form is kept. -/
def memWrite : Memory → Nat → Byte → Memory
  | [], a, b => memCons a b []
  | (x, v) :: r, a, b =>
    if a < x then memCons a b ((x, v) :: r)
    else if a = x then memCons a b r
    else (x, v) :: memWrite r a b

/-- The canonical form: addresses strictly rising, no cell that holds `unlistedByte`. -/
def Memory.wf : Memory → Bool
  | [] => true
  | (x, v) :: r => v != unlistedByte && r.all (fun c => decide (x < c.1)) && Memory.wf r

/-- The `n` bytes from address `a` on. -/
def memSlice (m : Memory) (a n : Nat) : List Byte := (List.range n).map fun k => memRead m (a + k)

/-- Bytes written from address `a` on, the first at the lowest. -/
def memWriteAll (m : Memory) (a : Nat) : List Byte → Memory
  | [] => m
  | b :: r => memWriteAll (memWrite m a b) (a + 1) r

/-- `FB[i] <- b` (rule R12); the caller has checked `i < FBUF_CAP`. -/
def State.writeFb (s : State) (i : Nat) (b : Byte) : State := { s with fb := memWrite s.fb i b }

/-- `STATUS.READY`, computed from `PHASE` (10_state.md rules R25, R32). -/
def State.ready (s : State) : Bool := s.phase == .idle

/-- The state `t` if the block is in the phase that takes this instruction, else `s` unchanged: a request presented while
`READY = 0` is not taken (44_scan_cycle.md rule R210), and each wire message is handled in its own phase only (rules R202
to R205). Log 6. -/
def State.takenIn (p : Phase) (s t : State) : State := if s.phase = p then t else s

/-- `finish(code)`, rule R206. -/
def State.finish (s : State) (code : CycleOutcome) : State := { s with outcome := code, phase := .idle }

/-- `Emit(r)` for each record in order (rule R12). -/
def State.emit (s : State) (rs : List Record) : State := { s with sink := s.sink ++ rs }

/-- `RxDrain()` and what follows it in the phase `DRAIN` (41_encoder.md rule R123). -/
def State.drainRx (s : State) : State := { s with rxq := [], phase := .send }

/-- `TxWrite` of a command frame, the sample of `T0`, and the phase that follows (41_encoder.md rule R124). -/
def State.sendFrame (s : State) (f : CmdFrame) : State :=
  { s with txs := s.txs ++ f.bytes, t0 := s.now, phase := .hunt }

/-- The frame in the command buffer: all six bytes at once (10_state.md rule R24). -/
def State.setCmd (s : State) (f : CmdFrame) : State := { s with cmd := f }

/-- A legal request clears `STATUS.ILLEGAL` when it is accepted (10_state.md rule R26). -/
def State.clearIllegal (s : State) : State := { s with illegal := false }

/-- `elapsed = u32(Now() - T0)`, 42_reader.md rule R141. -/
def State.elapsed (s : State) : Millis := s.now - s.t0

/-- The window is open, 42_reader.md rule R142. -/
def State.windowOpen (s : State) : Bool := s.elapsed.toNat < Config.windowMs

/-- The reset action of 70_reset_and_hazards.md rules R250 and R251: every element of the block at its reset value, the
environment and the other agents as they were. -/
def State.resetBlock (s : State) : State :=
  { State.reset with
    rxq := s.rxq, txs := s.txs, now := s.now, sink := s.sink, reqs := s.reqs, reads := s.reads, loop := s.loop,
    schedule := s.schedule }

end Sys2Proof.Machine
end

