-- ==== Sys2Proof/Machine/Checksum.lean ====
section
/-! DEFINITION. The checksum requests (40_checksum.md rules R101 to R103). -/

namespace Sys2Proof.Machine

/-- `CRC_INIT`, rule R101. -/
def execCrcInit (s : State) : Host.Outcome State Fault Refusal :=
  .next (s.takenIn .idle { s.clearIllegal with crcAcc := Config.crcInitVal })

/-- `CRC_UPDATE b`, rule R102. -/
def execCrcUpdate (b : Byte) (s : State) : Host.Outcome State Fault Refusal :=
  .next (s.takenIn .idle { s.clearIllegal with crcAcc := crcStep s.crcAcc b })

/-- `CRC_FINAL`, rule R103: the accumulator is kept. -/
def execCrcFinal (s : State) : Host.Outcome State Fault Refusal :=
  .next (s.takenIn .idle { s.clearIllegal with result := s.crcAcc ^^^ Config.crcXorOut })

end Sys2Proof.Machine
end

