-- ==== Sys2Proof/Machine/Encoder.lean ====
section
/-! DEFINITION. The encoder request and the command frame (41_encoder.md rules R120 to R124). -/

namespace Sys2Proof.Machine

/-- `ENCODE`, rule R121: no transport effect. -/
def execEncode (s : State) : Host.Outcome State Fault Refusal :=
  .next (s.takenIn .idle (s.clearIllegal.setCmd commandFrame))

/-- `CMD_INVENTORY_EXT`, the command frame sent: rules R120 and R124, in the phase `SEND` (44_scan_cycle.md rule R203). -/
def execCmdInventoryExt (s : State) : Host.Outcome State Fault Refusal :=
  .next (s.takenIn .send (s.sendFrame commandFrame))

end Sys2Proof.Machine
end

