-- ==== Sys2Proof/Machine/Flags.lean ====
section
/-! DEFINITION. The status word and the host's register read port (10_state.md rules R25 to R31), and the one counting rule
of a status field (42_reader.md rule R147). -/

namespace Sys2Proof.Machine

/-- The 4-bit code of an outcome (60_exceptions.md rule R221). -/
def CycleOutcome.code : CycleOutcome → BitVec 4
  | .none => 0
  | .decoded => 1
  | .noFrame => 2
  | .partialTimeout => 3
  | .ignored => 4
  | .aborted => 5

/-- `STATUS`: `[15:8] OVERSIZE_CNT, [7:4] OUTCOME, [3:2] 0, [1] ILLEGAL, [0] READY` (rules R29, R30). -/
def State.status (s : State) : Word :=
  s.oversizeCnt ++ s.outcome.code ++ (0 : BitVec 2) ++ BitVec.ofBool s.illegal ++ BitVec.ofBool s.ready

/-- `RegRead(i)`, rule R30. -/
def State.regRead (s : State) (i : BitVec 4) : Word :=
  match i.toNat with
  | 0 => s.status
  | 1 => s.crcAcc
  | 2 => s.result
  | 3 => s.cmd.start.setWidth 16
  | 4 => s.cmd.length.setWidth 16
  | 5 => s.cmd.code.setWidth 16
  | 6 => s.cmd.param.setWidth 16
  | 7 => s.cmd.crcHi.setWidth 16
  | 8 => s.cmd.crcLo.setWidth 16
  | _ => 0

/-- `min(n + 1, 255)`, rule R147. -/
def satInc (n : Byte) : Byte := if n = 255 then 255 else n + 1

end Sys2Proof.Machine
end

