-- ==== Sys2Proof/Machine/Operands.lean ====
section
/-! DEFINITION. The operand forms of a response frame (30_encoding.md rules R79 to R81) and the decoder's walk over them
(43_decoder.md rules R170 to R183), over the bytes of the declared payload only: a cursor that holds no byte at or beyond
`P_END` cannot read one (rule R171). -/

namespace Sys2Proof.Machine

/-- The decoder's cursor (10_state.md rule R40): the payload bytes not yet consumed, `FB[c .. P_END)`, and the records
emitted so far for this frame. -/
structure Cursor where
  rest : List Byte
  emitted : List Record
deriving DecidableEq, Repr

/-- What a decode step does: the outcome it finishes with, the records it emits, and how many bytes of the declared
payload lie beyond its last cursor (`P_END - c`). -/
structure Decoded where
  outcome : CycleOutcome
  records : List Record
  left : Nat
deriving DecidableEq, Repr

/-- `need(c, k)`, rule R171: `k` bytes lie inside the declared payload. -/
def need (c : Cursor) (k : Nat) : Bool := k ≤ c.rest.length

/-- The next `k` bytes and the cursor past them, if `need(c, k)`. -/
def takeBytes (c : Cursor) (k : Nat) : Option (List Byte × Cursor) :=
  if need c k then some (c.rest.take k, { c with rest := c.rest.drop k }) else none

/-- A length byte `n` and the `n` bytes after it (rules R80, R81), both bounds checked. -/
def takePrefixed (c : Cursor) : Option (List Byte × Cursor) :=
  match c.rest with
  | [] => none
  | n :: r => takeBytes { c with rest := r } n.toNat

/-- The flag selects a field. -/
def selected (flags mask : Byte) : Bool := flags &&& mask != 0

/-- The big-endian `s16` of 30_encoding.md rules R52 and R81, as its 16 bits. -/
def rssiRaw (hi lo : Byte) : Word := hi ++ lo

/-- Device identifier, rule R176: skipped, not reported. On a failed bound the walk stops at the cursor it had. -/
def fieldDevId (m : Masks) (flags : Byte) (c : Cursor) : Except Cursor Cursor :=
  if selected flags m.devId then
    match takeBytes c Config.devIdLen with
    | none => .error c
    | some (_, c') => .ok c'
  else .ok c

/-- EPC, rule R177. -/
def fieldEpc (m : Masks) (flags : Byte) (c : Cursor) : Except Cursor Cursor :=
  if selected flags m.epc then
    match takePrefixed c with
    | none => .error c
    | some (bytes, c') => .ok { c' with emitted := c'.emitted ++ [.epc bytes] }
  else .ok c

/-- TID, rule R178. -/
def fieldTid (m : Masks) (flags : Byte) (c : Cursor) : Except Cursor Cursor :=
  if selected flags m.tid then
    match takePrefixed c with
    | none => .error c
    | some (bytes, c') => .ok { c' with emitted := c'.emitted ++ [.tid bytes] }
  else .ok c

/-- User memory, rule R179: skipped, not reported. -/
def fieldMem (m : Masks) (flags : Byte) (c : Cursor) : Except Cursor Cursor :=
  if selected flags m.mem then
    match takePrefixed c with
    | none => .error c
    | some (_, c') => .ok c'
  else .ok c

/-- RSSI, rule R180. -/
def fieldRssi (m : Masks) (flags : Byte) (c : Cursor) : Except Cursor Cursor :=
  if selected flags m.rssi then
    match takeBytes c Config.rssiLen with
    | some ([hi, lo], c') => .ok { c' with emitted := c'.emitted ++ [.rssi (rssiRaw hi lo)] }
    | _ => .error c
  else .ok c

/-- The optional fields in their fixed order (rules R80, R170), each from the cursor the one before left. -/
def walkFields (m : Masks) (flags : Byte) (c : Cursor) : Except Cursor Cursor :=
  match fieldDevId m flags c with
  | .error e => .error e
  | .ok c1 => match fieldEpc m flags c1 with
    | .error e => .error e
    | .ok c2 => match fieldTid m flags c2 with
      | .error e => .error e
      | .ok c3 => match fieldMem m flags c3 with
        | .error e => .error e
        | .ok c4 => fieldRssi m flags c4

/-- A tag notification from its header flags byte on (indices `3 .. L+1`): rules R174, R175, R182, R183. -/
def decodeTagPayload (m : Masks) (payload : List Byte) : Decoded :=
  match payload with
  | [] => { outcome := .aborted, records := [], left := 0 }
  | flags :: rest => match walkFields m flags { rest := rest, emitted := [.sep] } with
    | .ok c => { outcome := .decoded, records := c.emitted, left := c.rest.length }
    | .error c => { outcome := .aborted, records := c.emitted, left := c.rest.length }

end Sys2Proof.Machine
end

