-- ==== Sys2Proof/Machine/Response.lean ====
section
/-! DEFINITION. The received wire messages: the decode step on a complete frame (43_decoder.md rules R170 to R183) and the
rejected length (42_reader.md rule R147). -/

namespace Sys2Proof.Machine

/-- The records emitted, then `finish` (rules R181 to R183, 44_scan_cycle.md rule R206). -/
def State.report (s : State) (d : Decoded) : State := (s.emit d.records).finish d.outcome

/-- `RSP_TAG_NOTIFY`, rule R170; the trailer is not read (30_encoding.md rule R82). -/
def execRspTagNotify (payload : List Byte) (_crcHi _crcLo : Byte) (s : State) : Host.Outcome State Fault Refusal :=
  .next (s.takenIn .decode (s.report (decodeTagPayload Config.masks payload)))

/-- `RSP_EMPTY`, rule R172: the code is not in the payload. -/
def execRspEmpty (_crcHi _crcLo : Byte) (s : State) : Host.Outcome State Fault Refusal :=
  .next (s.takenIn .decode (s.finish .ignored))

/-- `RSP_OTHER`, rule R173. -/
def execRspOther (_code : Byte) (_rest : List Byte) (_crcHi _crcLo : Byte) (s : State) :
    Host.Outcome State Fault Refusal :=
  .next (s.takenIn .decode (s.finish .ignored))

/-- `RSP_OVERSIZE`, rule R147, after its length byte is popped: the reader hunts again. -/
def execRspOversize (len : Byte) (s : State) : Host.Outcome State Fault Refusal :=
  .next (s.takenIn .len { s with len := len, oversizeCnt := satInc s.oversizeCnt, phase := .hunt })

end Sys2Proof.Machine
end

