-- ==== Sys2Proof/Machine/Scan.lean ====
section
/-! DEFINITION. The acceptance of `SCAN` (44_scan_cycle.md rule R201) and of an illegal request word (60_exceptions.md rule
R227). The rest of a scan cycle is the block's steps in the phases after `IDLE`. -/

namespace Sys2Proof.Machine

/-- `SCAN`, rules R200 and R201: touches no transport and reads no time. -/
def execScan (s : State) : Host.Outcome State Fault Refusal :=
  .next (s.takenIn .idle
    { s.clearIllegal.setCmd commandFrame with outcome := .none, oversizeCnt := 0, phase := .drain })

/-- `ILLEGAL`, rule R227: the flag and nothing else, whatever the word's fields. -/
def execIllegal (_data : Byte) (_rsv _op : BitVec 4) (s : State) : Host.Outcome State Fault Refusal :=
  .next (s.takenIn .idle { s with illegal := true })

end Sys2Proof.Machine
end

