-- ==== Sys2Proof/Machine/Dispatch.lean ====
section
/-! DEFINITION. The meaning of every instruction, one arm per constructor. -/

namespace Sys2Proof.Machine

/-- Each instruction's meaning. -/
def exec (i : Instr) (s : State) : Host.Outcome State Fault Refusal :=
  match i with
  | .crcInit => Sys2Proof.Machine.execCrcInit s
  | .crcUpdate b => Sys2Proof.Machine.execCrcUpdate b s
  | .crcFinal => Sys2Proof.Machine.execCrcFinal s
  | .encode => Sys2Proof.Machine.execEncode s
  | .scan => Sys2Proof.Machine.execScan s
  | .illegal data rsv op => Sys2Proof.Machine.execIllegal data rsv op s
  | .cmdInventoryExt => Sys2Proof.Machine.execCmdInventoryExt s
  | .rspTagNotify payload crcHi crcLo => Sys2Proof.Machine.execRspTagNotify payload crcHi crcLo s
  | .rspEmpty crcHi crcLo => Sys2Proof.Machine.execRspEmpty crcHi crcLo s
  | .rspOther code rest crcHi crcLo => Sys2Proof.Machine.execRspOther code rest crcHi crcLo s
  | .rspOversize len => Sys2Proof.Machine.execRspOversize len s

end Sys2Proof.Machine
end

