-- ==== Sys2Proof/WellFormed.lean ====
section
/-! DEFINITION. Which instructions a decoder can read: the request words that are illegal by 30_encoding.md rule R73, and
the length and code limits of the response rows of spec/opcode_table.json. -/

namespace Sys2Proof

/-- Rule R73: the fields of a legal request word. -/
def legalRequest (data : Byte) (rsv op : BitVec 4) : Bool :=
  rsv == 0 && (op == 1 || op == 2 || op == 3 || op == 4 || op == 5) && (data == 0 || op == 2)

/-- An instruction that some encoding stands for. -/
def Instr.wellFormed : Instr → Bool
  | .crcInit => true
  | .crcUpdate _ => true
  | .crcFinal => true
  | .encode => true
  | .scan => true
  | .illegal data rsv op => !legalRequest data rsv op
  | .cmdInventoryExt => true
  | .rspTagNotify payload _ _ => payload.length + 1 ≤ Config.maxLen
  | .rspEmpty _ _ => true
  | .rspOther code rest _ _ => code != Config.respTag && rest.length + 1 ≤ Config.maxLen
  | .rspOversize len => Config.maxLen < len.toNat

/-- `Instr.wellFormed` as a proposition. -/
abbrev WellFormed (i : Instr) : Prop := i.wellFormed = true

end Sys2Proof
end

