-- ==== Sys2Proof/Decode.lean ====
section
/-! DEFINITION. The decoders of 30_encoding.md, total on any word and any bytes and rejecting by name, and after them the
encoder, written from the same layouts; then the host's numbering of an instruction's bits. -/

namespace Sys2Proof

/-- `DATA`, bits `[15:8]` of a request word (rule R71). -/
def dataField (w : Word) : Byte := w.extractLsb' 8 8

/-- `RSV`, bits `[7:4]`. -/
def rsvField (w : Word) : BitVec 4 := w.extractLsb' 4 4

/-- `OP`, bits `[3:0]`. -/
def opField (w : Word) : BitVec 4 := w.extractLsb' 0 4

/-- A request word from its three fields (rule R71). -/
def requestWord (data : Byte) (rsv op : BitVec 4) : Word := data ++ rsv ++ op

/-- `decode(w)` of rule R73: total, every word that is not legal is `ILLEGAL`. -/
def decodeRequest (w : Word) : Instr :=
  let op := opField w
  let rsv := rsvField w
  let d := dataField w
  if rsv ≠ 0 then .illegal d rsv op
  else if op = 2 then .crcUpdate d
  else if d ≠ 0 then .illegal d rsv op
  else if op = 1 then .crcInit
  else if op = 3 then .crcFinal
  else if op = 4 then .encode
  else if op = 5 then .scan
  else .illegal d rsv op

/-- A frame the block sends: the six bytes of rule R76 and nothing else. -/
def decodeCommand (bytes : List Byte) : Except Reject Instr :=
  if bytes = Machine.commandFrame.bytes then .ok .cmdInventoryExt else .error .notTheCommandFrame

/-- The response whose declared payload (indices `2 .. L+1`) and trailer are given (rules R77, R78, R83). -/
def responseOf (payload : List Byte) (crcHi crcLo : Byte) : Instr :=
  match payload with
  | [] => .rspEmpty crcHi crcLo
  | code :: rest => if code = Config.respTag then .rspTagNotify rest crcHi crcLo else .rspOther code rest crcHi crcLo

/-- The first response frame of a byte string and the bytes after it. The length is told from index 1 alone (rule R84);
an oversized length ends the candidate frame at the length byte (42_reader.md rule R147). -/
def decodeResponsePrefix : List Byte → Except Reject (Instr × List Byte)
  | [] => .error .truncated
  | [m] => if m = Config.startMark then .error .truncated else .error .notStartMarker
  | m :: l :: body =>
    if m ≠ Config.startMark then .error .notStartMarker
    else if Config.maxLen < l.toNat then .ok (.rspOversize l, body)
    else match body.drop l.toNat with
      | hi :: lo :: rest => .ok (responseOf (body.take l.toNat) hi lo, rest)
      | _ => .error .truncated

/-- A byte string that is exactly one response frame. -/
def decodeResponse (bytes : List Byte) : Except Reject Instr :=
  match decodeResponsePrefix bytes with
  | .ok (i, []) => .ok i
  | .ok (_, r :: rest) => .error (.trailingBytes (r :: rest).length)
  | .error e => .error e

/-- The decoder of all three domains. -/
def decode : Encoding → Except Reject Instr
  | .request w => .ok (decodeRequest w)
  | .command bytes => decodeCommand bytes
  | .response bytes => decodeResponse bytes

/-- The bytes of a response frame around its declared payload (rule R78). -/
def responseBytes (payload : List Byte) (crcHi crcLo : Byte) : List Byte :=
  Config.startMark :: BitVec.ofNat 8 payload.length :: (payload ++ [crcHi, crcLo])

/-- The encoding of an instruction, from the same tables (rules R71, R76, R78, R86). -/
def encode : Instr → Encoding
  | .crcInit => .request (requestWord 0 0 1)
  | .crcUpdate b => .request (requestWord b 0 2)
  | .crcFinal => .request (requestWord 0 0 3)
  | .encode => .request (requestWord 0 0 4)
  | .scan => .request (requestWord 0 0 5)
  | .illegal data rsv op => .request (requestWord data rsv op)
  | .cmdInventoryExt => .command Machine.commandFrame.bytes
  | .rspTagNotify payload hi lo => .response (responseBytes (Config.respTag :: payload) hi lo)
  | .rspEmpty hi lo => .response (responseBytes [] hi lo)
  | .rspOther code rest hi lo => .response (responseBytes (code :: rest) hi lo)
  | .rspOversize len => .response [Config.startMark, len]

/-- `n` bytes of the number `w`, the least significant first (log 10: the table's numbering of wire bytes). -/
def tableBytes : Nat → Nat → List Byte
  | 0, _ => []
  | n + 1, w => BitVec.ofNat 8 w :: tableBytes n (w / 256)

/-- The instruction read from `nbits` bits numbered as spec/opcode_table.json numbers them. Sixteen bits are a request
word; the 48 bits of the command frame are that frame, whichever end its first byte stands at (the table writes the row's own
number `0xBB02210C16AB`); anything longer is a received frame, its bits above `nbits` zero, and no set bit may stand beyond the
frame's end. Log 10. -/
def decodeTableWord (nbits w : Nat) : Option Instr :=
  if nbits ≤ 16 then some (decodeRequest (BitVec.ofNat 16 w))
  else if nbits = 48 ∧ (tableBytes 6 w = Machine.commandFrame.bytes ∨ (tableBytes 6 w).reverse = Machine.commandFrame.bytes)
  then some .cmdInventoryExt
  else match decodeResponsePrefix (tableBytes (max Config.fbufCap ((nbits + 7) / 8)) w) with
    | .ok (i, rest) => if rest.all (· == 0) then some i else none
    | .error _ => none

end Sys2Proof
end

