-- ==== Sys2Proof/Machine/Environment.lean ====
section
/-! DEFINITION. The moves of the agents other than the block (10_state.md rule R20): the host's requests, register reads,
repeat loop and reset, the transport environment's bytes, the timer environment's time. -/

namespace Sys2Proof.Machine

/-- The host issues a word: it is presented after the words already held (44_scan_cycle.md rule R210). Log 2. -/
def State.issue (s : State) (w : Word) : State := { s with reqs := s.reqs ++ [w] }

/-- A register read: no side effect on the block (10_state.md rule R31); what it returned is kept. Log 13. -/
def State.hostRead (s : State) (i : BitVec 4) : State :=
  { s with reads := s.reads ++ [{ index := i, value := s.regRead i }] }

/-- The request word of `SCAN` (30_encoding.md rule R71). -/
def scanWord : Word := requestWord 0 0 5

/-- One look of the host's repeat loop (44_scan_cycle.md rule R207): issue `SCAN`, wait until it was taken and
`READY = 1`, wait `IDLE_MS` by the host's own clock, issue again. Log 14. -/
def State.hostLoop (s : State) (clock : Millis) : State :=
  match s.loop with
  | .start => { s.issue scanWord with loop := .waiting }
  | .waiting => if s.reqs = [] ∧ s.ready then { s with loop := .idling clock } else s
  | .idling since => if Config.idleMs ≤ (clock - since).toNat then { s.issue scanWord with loop := .waiting } else s

/-- The transport environment appends one byte (10_state.md rule R33). -/
def State.receive (s : State) (b : Byte) : State := { s with rxq := s.rxq ++ [b] }

/-- The timer environment advances the time input, wrapping (10_state.md rule R34). -/
def State.advance (s : State) (d : Millis) : State := { s with now := s.now + d }

/-- The move of an agent other than the block; the block's own is `blockStep`. -/
def envMove (e : Event) (s : State) : State :=
  match e with
  | .codec => s
  | .hostRequest w => s.issue w
  | .hostRead i => s.hostRead i
  | .hostLoop clock => s.hostLoop clock
  | .hostReset => s.resetBlock
  | .rxByte b => s.receive b
  | .tick d => s.advance d

end Sys2Proof.Machine
end

