-- ==== Sys2Proof/Machine/Reader.lean ====
section
/-! DEFINITION. The reader's step (42_reader.md, the pseudocode after rule R143): the deadline first, then the transport,
then the byte by phase. -/

namespace Sys2Proof.Machine

/-- `HUNT` with byte `b` popped, rule R144. -/
def huntByte (b : Byte) (s : State) : State :=
  if b = Config.startMark then { s.writeFb 0 b with phase := .len } else s

/-- `LEN` with byte `b` popped, rules R146 and R147: an oversized length is the message `RSP_OVERSIZE`. -/
def lenByte (b : Byte) (s : State) : Fetched :=
  if Config.maxLen < b.toNat then .instr (.rspOversize b) s
  else .action { s.writeFb 1 b with len := b, idx := 2, phase := .body }

/-- `BODY` with byte `b` popped, rules R149 and R151. A write at `FBUF_CAP` or above is a stop (log 7). -/
def bodyByte (b : Byte) (s : State) : Fetched :=
  if s.idx.toNat < Config.fbufCap then
    let t := { s.writeFb s.idx.toNat b with idx := s.idx + 1 }
    .action { t with phase := if t.idx.toNat = t.len.toNat + 4 then .decode else .body }
  else .stop (.frameBufferWrite s.idx.toNat)

/-- The reader ends the window: NO_FRAME while hunting (rule R145), PARTIAL_TIMEOUT after a start marker (rules R148,
R150). -/
def deadline (s : State) : State :=
  if s.phase = .hunt then s.finish .noFrame else s.finish .partialTimeout

/-- `reader_step()`: `takeByte` says what the popped byte does in this phase. -/
def readerStep (takeByte : Byte → State → Fetched) (s : State) : Fetched :=
  if s.windowOpen then
    match s.rxq with
    | [] => .action s
    | b :: r => takeByte b { s with rxq := r }
  else .action (deadline s)

end Sys2Proof.Machine
end

