-- ==== Sys2Proof/Machine/Fetch.lean ====
section
/-! DEFINITION. What stands before the block in its next step (44_scan_cycle.md rules R200 to R205, R210): a request word on
the port in `IDLE`, the command frame in `SEND`, a rejected length in `LEN`, a complete frame in `DECODE`, and in every
other case an action that is no instruction; and the placing of an instruction where this fetch finds it (log 4). -/

namespace Sys2Proof.Machine

/-- `IDLE`, rule R210: the word on the port is taken and decoded; with no word the block does nothing. -/
def fetchIdle (s : State) : Fetched :=
  match s.reqs with
  | [] => .action s
  | w :: r => .instr (decodeRequest w) { s with reqs := r }

/-- `SEND`, rule R203: the six bytes of `CMD` are sent. They are the command frame in every reachable state; whatever they
are, they are what is sent (41_encoder.md rule R124, log 9). -/
def fetchSend (s : State) : Fetched :=
  match decodeCommand s.cmd.bytes with
  | .ok i => .instr i s
  | .error _ => .action (s.sendFrame s.cmd)

/-- The complete frame in `FB`, by its declared length `L` (43_decoder.md rule R170, log 8). -/
def frameInstr (s : State) : Instr :=
  responseOf (memSlice s.fb 2 s.len.toNat) (memRead s.fb (s.len.toNat + 2)) (memRead s.fb (s.len.toNat + 3))

/-- `DECODE`, rule R205. A frame longer than the buffer is a stop (log 7). -/
def fetchDecode (s : State) : Fetched :=
  if s.len.toNat + 4 ≤ Config.fbufCap then .instr (frameInstr s) s else .stop (.frameBufferRead (s.len.toNat + 4))

/-- What the block does next, by phase. -/
def fetch (s : State) : Fetched :=
  match s.phase with
  | .idle => fetchIdle s
  | .drain => .action s.drainRx
  | .send => fetchSend s
  | .hunt => readerStep (fun b t => .action (huntByte b t)) s
  | .len => readerStep lenByte s
  | .body => readerStep bodyByte s
  | .decode => fetchDecode s

/-- An instruction where the block's very next step takes it. The block moves next; the request is on the port, the
command frame in `CMD`, the response in `FB`, the rejected length in `RXQ` behind a start marker in an open window. -/
def placeInstr (i : Instr) (s : State) : State :=
  let t := { s with schedule := .codec :: s.schedule }
  match encode i with
  | .request w => { t with phase := .idle, reqs := w :: s.reqs }
  | .command _ => { t with phase := .send, cmd := commandFrame }
  | .response [m, l] => { t with phase := .len, fb := memWrite s.fb 0 m, rxq := l :: s.rxq, t0 := s.now }
  | .response bytes =>
    let l : Byte := BitVec.ofNat 8 (bytes.length - 4)
    { t with phase := .decode, fb := memWriteAll s.fb 0 bytes, len := l, idx := l + 4 }

/-- The instruction of the table's bits placed so (log 4, log 10); no change where the decoder refuses the bits. -/
def placeTableWord (s : State) (nbits w : Nat) : State :=
  match decodeTableWord nbits w with
  | some i => placeInstr i s
  | none => s

end Sys2Proof.Machine
end

