-- ==== Sys2Proof/Machine/Turn.lean ====
section
/-! DEFINITION. One step of the machine: the agent whose turn it is moves (10_state.md rule R20, log 1). -/

namespace Sys2Proof.Machine

/-- The block's step: the instruction before it, or its action. -/
def blockStep (s : State) : Host.Outcome State Fault Refusal :=
  match fetch s with
  | .instr i t => exec i t
  | .action t => .next t
  | .stop f => .fault f

/-- The next event's move; with nothing scheduled the block moves. -/
def turn (s : State) : Host.Outcome State Fault Refusal :=
  match s.schedule with
  | [] => blockStep s
  | .codec :: r => blockStep { s with schedule := r }
  | .hostRequest w :: r => .next (envMove (.hostRequest w) { s with schedule := r })
  | .hostRead i :: r => .next (envMove (.hostRead i) { s with schedule := r })
  | .hostLoop clock :: r => .next (envMove (.hostLoop clock) { s with schedule := r })
  | .hostReset :: r => .next (envMove .hostReset { s with schedule := r })
  | .rxByte b :: r => .next (envMove (.rxByte b) { s with schedule := r })
  | .tick d :: r => .next (envMove (.tick d) { s with schedule := r })

end Sys2Proof.Machine
end

