-- ==== Sys2Proof/Machine/Assembly.lean ====
section
/-! DEFINITION. The assembly language of requests (30_encoding.md rules R74 and R75): its statements, the words they stand
for, the text of a statement, and the reading of a program's text. -/

namespace Sys2Proof.Machine

/-- One statement: a request, the directive `.word`, or the pseudo-instruction `CRC16`. -/
inductive Asm where
  | crcInit
  | crcUpdate (b : Byte)
  | crcFinal
  | encode
  | scan
  | word (w : Word)
  | crc16 (bytes : List Byte)
deriving DecidableEq, Repr

/-- The word of an instruction that is a request. -/
def requestWords (i : Instr) : List Word :=
  match Sys2Proof.encode i with
  | .request w => [w]
  | .command _ => []
  | .response _ => []

/-- `CRC16 b0, ..., b(n-1)`, rule R75: `CRC_INIT`, the updates in order, `CRC_FINAL`. -/
def crc16Words (bytes : List Byte) : List Word :=
  requestWords .crcInit ++ bytes.flatMap (fun b => requestWords (.crcUpdate b)) ++ requestWords .crcFinal

/-- The request words of a statement. -/
def Asm.words : Asm → List Word
  | .crcInit => requestWords .crcInit
  | .crcUpdate b => requestWords (.crcUpdate b)
  | .crcFinal => requestWords .crcFinal
  | .encode => requestWords .encode
  | .scan => requestWords .scan
  | .word w => [w]
  | .crc16 bytes => crc16Words bytes

/-- The words of a program, in the order the host presents them. -/
def assemble (p : List Asm) : List Word := p.flatMap Asm.words

/-- The value of a digit in base 10 or 16. -/
def digitValue (base : Nat) (c : Char) : Option Nat :=
  let n := c.toNat
  let v := if 48 ≤ n ∧ n ≤ 57 then n - 48 else if 65 ≤ n ∧ n ≤ 70 then n - 55 else if 97 ≤ n ∧ n ≤ 102 then n - 87 else 99
  if v < base then some v else none

/-- The value of a string of digits, after the value `acc` of the digits before them. -/
def digitsValue (base : Nat) (acc : Nat) : List Char → Option Nat
  | [] => some acc
  | c :: r => match digitValue base c with
    | some v => digitsValue base (acc * base + v) r
    | none => none

/-- A number below `2 ^ width`: `0x` and hexadecimal digits, or decimal digits (log 18). -/
def parseNumber (width : Nat) (t : List Char) : Option (BitVec width) :=
  let value := match t with
    | '0' :: 'x' :: c :: r => digitsValue 16 0 (c :: r)
    | c :: r => digitsValue 10 0 (c :: r)
    | [] => none
  match value with
  | some v => if v < 2 ^ width then some (BitVec.ofNat width v) else none
  | none => none

/-- Every operand of a list is a byte. -/
def parseBytes : List (List Char) → Option (List Byte)
  | [] => some []
  | t :: r => match parseNumber 8 t, parseBytes r with
    | some b, some bs => some (b :: bs)
    | _, _ => none

/-- The part of a line before the comment. -/
def beforeComment : List Char → List Char
  | [] => []
  | c :: r => if c = ';' then [] else c :: beforeComment r

/-- A character that parts tokens: blank, tab, comma or carriage return (log 18). -/
def isGap (c : Char) : Bool := c == ' ' || c == '\t' || c == ',' || c == '\r'

/-- The tokens of a line, `cur` being the characters of the token begun, in order. -/
def tokensFrom (cur : List Char) : List Char → List (List Char)
  | [] => if cur.isEmpty then [] else [cur]
  | c :: r =>
    if isGap c then (if cur.isEmpty then tokensFrom [] r else cur :: tokensFrom [] r)
    else tokensFrom (cur ++ [c]) r

/-- The lines of a text, `cur` being the characters of the line begun, in order. -/
def linesFrom (cur : List Char) : List Char → List (List Char)
  | [] => [cur]
  | c :: r => if c = '\n' then cur :: linesFrom [] r else linesFrom (cur ++ [c]) r

def kwCrcInit : List Char := ['C', 'R', 'C', '_', 'I', 'N', 'I', 'T']
def kwCrcUpdate : List Char := ['C', 'R', 'C', '_', 'U', 'P', 'D', 'A', 'T', 'E']
def kwCrcFinal : List Char := ['C', 'R', 'C', '_', 'F', 'I', 'N', 'A', 'L']
def kwEncode : List Char := ['E', 'N', 'C', 'O', 'D', 'E']
def kwScan : List Char := ['S', 'C', 'A', 'N']
def kwWord : List Char := ['.', 'w', 'o', 'r', 'd']
def kwCrc16 : List Char := ['C', 'R', 'C', '1', '6']

/-- A statement with no operand: its mnemonic stands alone. -/
def bareStatement (operands : List (List Char)) (a : Asm) : Option Asm :=
  if operands.isEmpty then some a else none

/-- The statement of a line's tokens (rule R74: upper-case mnemonics). -/
def parseTokens (mnemonic : List Char) (operands : List (List Char)) : Option Asm :=
  if mnemonic = kwCrcInit then bareStatement operands .crcInit
  else if mnemonic = kwCrcFinal then bareStatement operands .crcFinal
  else if mnemonic = kwEncode then bareStatement operands .encode
  else if mnemonic = kwScan then bareStatement operands .scan
  else if mnemonic = kwCrcUpdate then
    match operands with
    | [t] => (parseNumber 8 t).map .crcUpdate
    | _ => none
  else if mnemonic = kwWord then
    match operands with
    | [t] => (parseNumber 16 t).map .word
    | _ => none
  else if mnemonic = kwCrc16 then (parseBytes operands).map .crc16
  else none

/-- A line: at most one statement, then a comment. The outer `none` is a line that cannot be read. -/
def parseLine (line : List Char) : Option (List Asm) :=
  match tokensFrom [] (beforeComment line) with
  | [] => some []
  | mnemonic :: operands => (parseTokens mnemonic operands).map fun a => [a]

/-- Every line of a list. -/
def parseLines : List (List Char) → Option (List Asm)
  | [] => some []
  | l :: r => match parseLine l, parseLines r with
    | some a, some p => some (a ++ p)
    | _, _ => none

/-- A program's text (rule R74), or `none`. -/
def parseProgram (text : List Char) : Option (List Asm) := parseLines (linesFrom [] text)

/-- The four lower bits of a number as a hexadecimal digit. -/
def nibbleChar (n : Nat) : Char :=
  ['0', '1', '2', '3', '4', '5', '6', '7', '8', '9', 'A', 'B', 'C', 'D', 'E', 'F'].getD (n % 16) '0'

/-- A byte operand's text, `0xNN`. -/
def byteText (b : Byte) : List Char := ['0', 'x', nibbleChar (b.toNat / 16), nibbleChar b.toNat]

/-- A word operand's text, `0xNNNN`. -/
def wordText (w : Word) : List Char :=
  ['0', 'x', nibbleChar (w.toNat / 4096), nibbleChar (w.toNat / 256), nibbleChar (w.toNat / 16), nibbleChar w.toNat]

/-- Operands after a mnemonic, parted by a comma and a blank. -/
def operandsText : List Byte → List Char
  | [] => []
  | [b] => ' ' :: byteText b
  | b :: r => (' ' :: byteText b) ++ ',' :: operandsText r

/-- The text of a statement, without a line end. -/
def Asm.text : Asm → List Char
  | .crcInit => kwCrcInit
  | .crcUpdate b => kwCrcUpdate ++ operandsText [b]
  | .crcFinal => kwCrcFinal
  | .encode => kwEncode
  | .scan => kwScan
  | .word w => kwWord ++ ' ' :: wordText w
  | .crc16 bytes => kwCrc16 ++ operandsText bytes

/-- The text of a program, one statement a line. -/
def programText (p : List Asm) : List Char := p.flatMap fun a => a.text ++ ['\n']

end Sys2Proof.Machine
end

