-- ==== Sys2Proof/Machine/Text.lean ====
section
/-! DEFINITION. The text a sink renders records as (43_decoder.md rules R184 to R186), as lists of characters. The block
emits records; the text is a function of them and of the OPEN parameters `SEP_TEXT` and `LINE_END`. -/

namespace Sys2Proof.Machine

/-- The upper-case hexadecimal digit of a nibble. -/
def hexDigit (n : BitVec 4) : Char :=
  ['0', '1', '2', '3', '4', '5', '6', '7', '8', '9', 'A', 'B', 'C', 'D', 'E', 'F'].getD n.toNat '0'

/-- Two digits, the high nibble first. -/
def hexByte (b : Byte) : List Char := [hexDigit (b.extractLsb' 4 4), hexDigit (b.extractLsb' 0 4)]

/-- `hex(s)`, rule R185: first byte first, no separator. -/
def hexText (s : List Byte) : List Char := s.flatMap hexByte

/-- The decimal digit of `n mod 10`. -/
def decDigit (n : Nat) : Char := hexDigit (BitVec.ofNat 4 (n % 10))

/-- The decimal digits of `n` without leading zeros, `fuel` bounding their number. -/
def decDigitsFuel : Nat → Nat → List Char
  | 0, _ => []
  | fuel + 1, n => if n < 10 then [decDigit n] else decDigitsFuel fuel (n / 10) ++ [decDigit n]

/-- The decimal digits of `n`, `0` when it is zero. -/
def decDigits (n : Nat) : List Char := decDigitsFuel (n + 1) n

/-- `dec2(raw)`, rule R186: the exact decimal of `raw / 100` with two fractional digits. -/
def dec2 (raw : Word) : List Char :=
  let a := raw.toInt.natAbs
  (if raw.toInt < 0 then ['-'] else []) ++ decDigits (a / Config.rssiDiv) ++
    ['.', decDigit (a % Config.rssiDiv / 10), decDigit (a % Config.rssiDiv % 10)]

/-- The line of a record, rule R184. -/
def Record.line : Record → List Char
  | .sep => Config.sepText
  | .epc s => ['E', 'P', 'C', ' ', ':', ' '] ++ hexText s
  | .tid s => ['T', 'I', 'D', ' ', ':', ' '] ++ hexText s
  | .rssi raw => ['R', 'S', 'S', 'I', ':', ' '] ++ dec2 raw ++ [' ', 'd', 'B', 'm']

/-- The text of a sink's records in order, each line followed by `LINE_END`. -/
def sinkText (rs : List Record) : List Char := rs.flatMap fun r => r.line ++ Config.lineEnd

end Sys2Proof.Machine
end

