-- ==== Sys2Proof/Safety.lean ====
section
/-! DEFINITION. The terms in which claims about the machine are made: the invariant of 10_state.md rule R43, whose turn it
is, runs of several steps, the relation of two states that carry different things over from earlier cycles (44_scan_cycle.md
rule R208), a response frame as its sender builds it (43_decoder.md rule R187), and the decode step read by index as the
pseudocode of rule R170 writes it. -/

namespace Sys2Proof.Safety

open Sys2Proof.Machine

/-! ## The invariant -/

/-- The frame buffer is canonical and lists only addresses that exist. -/
def fbOk (m : Memory) : Bool := Memory.wf m && m.all fun c => decide (c.1 < Config.fbufCap)

/-- Rule R43, with what makes it inductive: the bytes of `FB` a candidate frame has fixed so far, the command frame before
the send (rule R201), and `OUTCOME` and `ILLEGAL` clear while a `SCAN` is in progress (rules R31, R201). That
`STATUS.READY = 1` iff `PHASE = IDLE`, and that `OUTCOME` is in `0..5`, hold by the types. -/
abbrev StateOk (s : State) : Prop :=
  fbOk s.fb = true ∧ s.idx.toNat ≤ Config.fbufCap ∧
  (s.phase ≠ .idle → s.outcome = .none ∧ s.illegal = false) ∧
  (s.phase = .drain ∨ s.phase = .send → s.cmd = commandFrame) ∧
  (s.phase = .len ∨ s.phase = .body ∨ s.phase = .decode → memRead s.fb 0 = Config.startMark) ∧
  (s.phase = .body ∨ s.phase = .decode → s.len.toNat ≤ Config.maxLen ∧ memRead s.fb 1 = s.len) ∧
  (s.phase = .body → 2 ≤ s.idx.toNat ∧ s.idx.toNat < s.len.toNat + 4) ∧
  (s.phase = .decode → s.idx.toNat = s.len.toNat + 4)

/-! ## Turns and runs -/

/-- The block moves in the next step (log 1). -/
def blockTurn (s : State) : Bool :=
  match s.schedule with
  | [] => true
  | .codec :: _ => true
  | .hostRequest _ :: _ => false
  | .hostRead _ :: _ => false
  | .hostLoop _ :: _ => false
  | .hostReset :: _ => false
  | .rxByte _ :: _ => false
  | .tick _ :: _ => false

/-- The state with the move at the head of the schedule used up. -/
def turnTaken (s : State) : State := { s with schedule := s.schedule.tail }

/-- `n` steps, stopping at the first fault or refusal. -/
def run : Nat → State → Host.Outcome State Fault Refusal
  | 0, s => .next s
  | n + 1, s =>
    match step s with
    | .next t => run n t
    | .fault f => .fault f
    | .refused r => .refused r

/-- The phases of the reader (42_reader.md rule R140). -/
def readerPhase (p : Phase) : Bool := p == .hunt || p == .len || p == .body

/-- The phase in which an instruction is taken (44_scan_cycle.md rules R202 to R205, R210). -/
def takenPhase : Instr → Phase
  | .crcInit => .idle
  | .crcUpdate _ => .idle
  | .crcFinal => .idle
  | .encode => .idle
  | .scan => .idle
  | .illegal _ _ _ => .idle
  | .cmdInventoryExt => .send
  | .rspTagNotify _ _ _ => .decode
  | .rspEmpty _ _ => .decode
  | .rspOther _ _ _ _ => .decode
  | .rspOversize _ => .len

/-- A move of the environment that is neither the block's nor a reset. -/
def isArrival (e : Event) : Bool :=
  match e with
  | .codec => false
  | .hostReset => false
  | .hostRequest _ => true
  | .hostRead _ => true
  | .hostLoop _ => true
  | .rxByte _ => true
  | .tick _ => true

/-- How far the moves of a schedule advance the time input, modulo `2^32`. -/
def ticks : List Event → Millis
  | [] => 0
  | .tick d :: r => d + ticks r
  | .codec :: r => ticks r
  | .hostRequest _ :: r => ticks r
  | .hostRead _ :: r => ticks r
  | .hostLoop _ :: r => ticks r
  | .hostReset :: r => ticks r
  | .rxByte _ :: r => ticks r

/-! ## What carries over from cycle to cycle -/

/-- Two frame buffers agree on the indices `lo .. hi-1`. -/
def fbAgree (a b : Memory) (lo hi : Nat) : Prop := ∀ i, lo ≤ i → i < hi → memRead a i = memRead b i

/-- Two states that stand at the same point of the same cycle under the same environment, but may have carried different
things over: `CRC_ACC`, `RESULT` always; before the drain `RXQ`; before the send `T0`; before the reader writes them `L`,
`IDX` and the bytes of `FB`; in `IDLE` also `CMD`. -/
def sameCycle (s t : State) : Prop :=
  s.phase = t.phase ∧ s.schedule = t.schedule ∧ s.now = t.now ∧ s.reqs = t.reqs ∧ s.loop = t.loop ∧
  s.outcome = t.outcome ∧ s.oversizeCnt = t.oversizeCnt ∧ s.illegal = t.illegal ∧
  (s.phase ≠ .idle → s.cmd = t.cmd) ∧
  (s.phase = .send ∨ readerPhase s.phase = true → s.rxq = t.rxq) ∧
  (readerPhase s.phase = true → s.t0 = t.t0) ∧
  (s.phase = .body → s.len = t.len ∧ s.idx = t.idx ∧ fbAgree s.fb t.fb 2 s.idx.toNat) ∧
  (s.phase = .decode → s.len = t.len ∧ fbAgree s.fb t.fb 2 (s.len.toNat + 2))

/-! ## A response frame as its sender builds it -/

/-- The contents of a tag notification: each optional field, or none (30_encoding.md rule R80). -/
structure ResponseFields where
  devId : Option (Byte × Byte × Byte × Byte)
  epc : Option (List Byte)
  tid : Option (List Byte)
  mem : Option (List Byte)
  rssi : Option (Byte × Byte)
deriving DecidableEq, Repr

/-- A length byte and the bytes it counts. -/
def prefixedBytes (s : List Byte) : List Byte := BitVec.ofNat 8 s.length :: s

/-- The header flags byte: the mask of every field that is present. -/
def ResponseFields.flags (m : Masks) (f : ResponseFields) : Byte :=
  (if f.devId.isSome then m.devId else 0) ||| (if f.epc.isSome then m.epc else 0) |||
  (if f.tid.isSome then m.tid else 0) ||| (if f.mem.isSome then m.mem else 0) |||
  (if f.rssi.isSome then m.rssi else 0)

/-- The bytes of the fields in their fixed order. -/
def ResponseFields.bytes (f : ResponseFields) : List Byte :=
  (f.devId.elim [] fun (a, b, c, d) => [a, b, c, d]) ++ f.epc.elim [] prefixedBytes ++ f.tid.elim [] prefixedBytes ++
  f.mem.elim [] prefixedBytes ++ f.rssi.elim [] fun (hi, lo) => [hi, lo]

/-- The records a decoder owes for the fields (43_decoder.md rule R181). -/
def ResponseFields.records (f : ResponseFields) : List Record :=
  f.epc.elim [] (fun s => [.epc s]) ++ f.tid.elim [] (fun s => [.tid s]) ++
  f.rssi.elim [] fun (hi, lo) => [.rssi (rssiRaw hi lo)]

/-- The tag notification frame of the fields (rule R86), with a trailer. -/
def ResponseFields.frame (m : Masks) (f : ResponseFields) (crcHi crcLo : Byte) : List Byte :=
  responseBytes (Config.respTag :: f.flags m :: f.bytes) crcHi crcLo

/-! ## The decode step by index (rule R170's pseudocode) -/

/-- A walk by index: aborted with the records emitted so far, or the cursor and those records. -/
abbrev IndexWalk := Except (List Record) (Nat × List Record)

/-- A fixed-width field that is skipped. -/
def ixSkip (pEnd width : Nat) (sel : Bool) (c : Nat) (out : List Record) : IndexWalk :=
  if sel then (if c + width ≤ pEnd then .ok (c + width, out) else .error out) else .ok (c, out)

/-- A length-prefixed field whose bytes give the records `emitted`. -/
def ixPrefixed (fb : Memory) (pEnd : Nat) (sel : Bool) (emitted : List Byte → List Record) (c : Nat)
    (out : List Record) : IndexWalk :=
  if sel then
    if c + 1 ≤ pEnd then
      let n := (memRead fb c).toNat
      if c + 1 + n ≤ pEnd then .ok (c + 1 + n, out ++ emitted (memSlice fb (c + 1) n)) else .error out
    else .error out
  else .ok (c, out)

/-- The RSSI field: `u = 256 * FB[c] + FB[c+1]`. -/
def ixRssi (fb : Memory) (pEnd : Nat) (sel : Bool) (c : Nat) (out : List Record) : IndexWalk :=
  if sel then
    if c + 2 ≤ pEnd then
      .ok (c + 2, out ++ [.rssi (BitVec.ofNat 16 (256 * (memRead fb c).toNat + (memRead fb (c + 1)).toNat))])
    else .error out
  else .ok (c, out)

/-- The fields from index 4 on. -/
def ixFields (m : Masks) (fb : Memory) (pEnd : Nat) (f : Byte) : IndexWalk :=
  match ixSkip pEnd 4 (f &&& m.devId != 0) 4 [.sep] with
  | .error e => .error e
  | .ok (c1, o1) => match ixPrefixed fb pEnd (f &&& m.epc != 0) (fun s => [.epc s]) c1 o1 with
    | .error e => .error e
    | .ok (c2, o2) => match ixPrefixed fb pEnd (f &&& m.tid != 0) (fun s => [.tid s]) c2 o2 with
      | .error e => .error e
      | .ok (c3, o3) => match ixPrefixed fb pEnd (f &&& m.mem != 0) (fun _ => []) c3 o3 with
        | .error e => .error e
        | .ok (c4, o4) => ixRssi fb pEnd (f &&& m.rssi != 0) c4 o4

/-- `decode_step()` of rule R170 on a frame buffer and a declared length: the outcome it finishes with and the records it
emits. -/
def ixDecode (m : Masks) (fb : Memory) (l : Nat) : CycleOutcome × List Record :=
  let pEnd := 2 + l
  if ¬ 2 + 1 ≤ pEnd then (.ignored, [])
  else if memRead fb 2 ≠ Config.respTag then (.ignored, [])
  else if ¬ 3 + 1 ≤ pEnd then (.aborted, [])
  else match ixFields m fb pEnd (memRead fb 3) with
    | .error out => (.aborted, out)
    | .ok (_, out) => (.decoded, out)

/-! ## The checksum on natural numbers -/

/-- One round of 40_checksum.md rule R100 on naturals below 65536. -/
def natRound (a : Nat) : Nat := if 32768 ≤ a then (2 * a % 65536) ^^^ 0x1021 else 2 * a

/-- `crc_step` on naturals. -/
def natStep (acc b : Nat) : Nat := natRound^[8] (acc ^^^ (b * 256))

/-- `checksum` on naturals. -/
def natChecksum (s : List Nat) : Nat := s.foldl natStep 65535 ^^^ 65535

/-! ## Text -/

/-- The number written by the decimal digits among some characters. -/
def digitsNumber (t : List Char) : Nat :=
  t.foldl (fun acc c => if c.isDigit then 10 * acc + (c.toNat - 48) else acc) 0

end Sys2Proof.Safety
end

