-- ==== Sys2Proof/Certificates/Slice0/Obligations.lean ====
section
/-! DEFINITION. The statements about the machine. Each says in its docstring which rule of the spec it formalises; none is
about a program. -/

open Sys2Proof Sys2Proof.Machine Sys2Proof.Safety

/-! ## A step runs the instruction before the block -/

/-- 44_scan_cycle.md section 3, in the block's turn, in `IDLE`: the word on the request port is taken off it (log 2) and the
instruction it decodes to is run; with no word presented the block does nothing. -/
def Obligations.StepRunsRequestOnPort : Prop :=
  (∀ (s : State) (w : Word) (r : List Word), blockTurn s = true → s.phase = .idle → s.reqs = w :: r →
    step s = exec (decodeRequest w) { s with schedule := s.schedule.tail, reqs := r }) ∧
  (∀ s : State, blockTurn s = true → s.phase = .idle → s.reqs = [] → step s = .next (turnTaken s))

/-- 44_scan_cycle.md section 1: the wire messages are run in their phases. In `SEND` the frame in `CMD`; in `DECODE` the
frame in `FB`, whose byte 1 is `L`; in `LEN` a start marker and an oversized length, once the length byte is popped. -/
def Obligations.StepRunsWireMessages : Prop :=
  (∀ (s : State) (i : Instr), blockTurn s = true → s.phase = .send → decode (.command s.cmd.bytes) = .ok i →
    step s = exec i (turnTaken s)) ∧
  (∀ (s : State) (i : Instr), blockTurn s = true → s.phase = .decode → memRead s.fb 1 = s.len →
    decode (.response (memSlice s.fb 0 (s.len.toNat + 4))) = .ok i → step s = exec i (turnTaken s)) ∧
  (∀ (s : State) (i : Instr) (b : Byte) (r : List Byte), blockTurn s = true → s.phase = .len →
    s.windowOpen = true → s.rxq = b :: r → decode (.response [0xBB, b]) = .ok i →
    step s = exec i { s with schedule := s.schedule.tail, rxq := r })

/-- An instruction handed to the block in a phase that does not take it is turned away: no part of its effect happens (for
requests 44_scan_cycle.md section 3; for wire messages the model's reading, log 6). -/
def Obligations.InstrTurnedAwayOutsideItsPhase : Prop :=
  ∀ (i : Instr) (s : State), s.phase ≠ takenPhase i → exec i s = .next s

/-! ## The requests -/

/-- Rule R101, `CRC_INIT`: the accumulator, the illegal flag, and nothing else; word `0x0001`. -/
def Obligations.CrcInitLoadsInitialValue : Prop :=
  decodeRequest 0x0001 = .crcInit ∧
  ∀ s : State, s.phase = .idle → exec .crcInit s = .next { s with crcAcc := 0xFFFF, illegal := false }

/-- Rule R102, `CRC_UPDATE b`: one `crc_step`, the illegal flag, and nothing else; word `(b << 8) | 2`; the rule's values. -/
def Obligations.CrcUpdateStepsAccumulator : Prop :=
  (∀ b : Byte, decodeRequest (b.setWidth 16 <<< 8 ||| 0x0002) = .crcUpdate b) ∧
  (∀ (b : Byte) (s : State), s.phase = .idle →
    exec (.crcUpdate b) s = .next { s with crcAcc := crcStep s.crcAcc b, illegal := false }) ∧
  crcStep 0xFFFF 0x00 = 0xE1F0 ∧ crcStep 0xFFFF 0x21 = 0xD5B3 ∧ State.reset.crcAcc = 0xFFFF

/-- Rule R103, `CRC_FINAL`: the complement of the accumulator into `RESULT`, the accumulator kept; word `0x0003`. -/
def Obligations.CrcFinalComplementsAccumulator : Prop :=
  decodeRequest 0x0003 = .crcFinal ∧
  (∀ s : State, s.phase = .idle → exec .crcFinal s = .next { s with result := ~~~s.crcAcc, illegal := false }) ∧
  ~~~(0xFFFF : Word) = 0x0000 ∧ ~~~(0xE954 : Word) = 0x16AB

/-- Rule R121, `ENCODE`: the six bytes of `CMD`, the illegal flag, and nothing else; word `0x0004`. -/
def Obligations.EncodeWritesCommandBuffer : Prop :=
  decodeRequest 0x0004 = .encode ∧ State.reset.cmd.bytes = [0, 0, 0, 0, 0, 0] ∧
  ∀ s : State, s.phase = .idle →
    exec .encode s = .next { s with cmd := ⟨0xBB, 0x02, 0x21, 0x0C, 0x16, 0xAB⟩, illegal := false }

/-- Rule R201, the acceptance of `SCAN`: it clears the three status fields, writes `CMD`, goes to `DRAIN`, and does nothing
else. -/
def Obligations.ScanAcceptedGoesToDrain : Prop :=
  decodeRequest 0x0005 = .scan ∧
  ∀ s : State, s.phase = .idle →
    exec .scan s = .next { s with
      illegal := false, outcome := .none, oversizeCnt := 0, cmd := ⟨0xBB, 0x02, 0x21, 0x0C, 0x16, 0xAB⟩,
      phase := .drain }

/-- Rule R227, an illegal word: the flag is set and nothing else changes; the next legal request clears it. -/
def Obligations.IllegalWordSetsFlagOnly : Prop :=
  (∀ (d : Byte) (rsv op : BitVec 4) (s : State), s.phase = .idle →
    exec (.illegal d rsv op) s = .next { s with illegal := true }) ∧
  (∀ (w : Word) (s t : State), s.phase = .idle → (∀ d rsv op, decodeRequest w ≠ .illegal d rsv op) →
    exec (decodeRequest w) s = .next t → t.illegal = false)

/-! ## Encoding -/

/-- Rule R73: which word is which request, and which words are illegal, in numbers. -/
def Obligations.RequestWordsDecodeByFields : Prop :=
  ∀ w : Word,
    (decodeRequest w = .crcInit ↔ w.toNat = 1) ∧
    (∀ b : Byte, decodeRequest w = .crcUpdate b ↔ w.toNat = 256 * b.toNat + 2) ∧
    (decodeRequest w = .crcFinal ↔ w.toNat = 3) ∧
    (decodeRequest w = .encode ↔ w.toNat = 4) ∧
    (decodeRequest w = .scan ↔ w.toNat = 5) ∧
    ((∃ d rsv op, decodeRequest w = .illegal d rsv op) ↔
      ¬ ((1 ≤ w.toNat % 16 ∧ w.toNat % 16 ≤ 5) ∧ w.toNat / 16 % 16 = 0 ∧
        (w.toNat / 256 = 0 ∨ w.toNat % 16 = 2)))

/-- Decoding the encoding of a well-formed instruction gives it back, for every instruction and every operand. -/
def Obligations.DecodeOfEncodeIsIdentity : Prop :=
  ∀ i : Instr, WellFormed i → decode (encode i) = .ok i

/-- Whatever decodes is well-formed and is the encoding of what it decodes to: no two encodings stand for one instruction. -/
def Obligations.EncodeOfDecodeIsIdentity : Prop :=
  ∀ (c : Encoding) (i : Instr), decode c = .ok i → WellFormed i ∧ encode i = c

/-- A frame of length byte `L` is `L + 4` bytes (30_encoding.md, rules R77 and R84): so long is every byte string that
decodes to a response which is not an oversized length. -/
def Obligations.ResponseFrameIsLengthPlusFour : Prop :=
  ∀ (bytes : List Byte) (i : Instr), decodeResponse bytes = .ok i → (∀ l, i ≠ .rspOversize l) →
    ∃ (l : Byte) (body : List Byte), bytes = 0xBB :: l :: body ∧ l.toNat ≤ 64 ∧ body.length = l.toNat + 2

/-- Words and frames written out from the encoding tables decode to what they stand for. -/
def Obligations.WrittenEncodingsDecode : Prop :=
  decode (.request 0x0001) = .ok .crcInit ∧
  decode (.request 0x2102) = .ok (.crcUpdate 0x21) ∧
  decode (.request 0x0104) = .ok (.illegal 0x01 0x0 0x4) ∧
  decode (.command [0xBB, 0x02, 0x21, 0x0C, 0x16, 0xAB]) = .ok .cmdInventoryExt ∧
  decode (.response [0xBB, 0x02, 0xE0, 0x00, 0xF2, 0x42]) = .ok (.rspTagNotify [0x00] 0xF2 0x42) ∧
  decode (.response [0xBB, 0x00, 0x12, 0x34]) = .ok (.rspEmpty 0x12 0x34) ∧
  decode (.response [0xBB, 0x02, 0x21, 0x00, 0xD7, 0x27]) = .ok (.rspOther 0x21 [0x00] 0xD7 0x27) ∧
  decode (.response [0xBB, 0xC8]) = .ok (.rspOversize 0xC8)

/-! ## The checksum -/

/-- Rule R100: the checksum, computed on naturals as the rule's pseudocode says. -/
def Obligations.ChecksumMatchesRule : Prop :=
  (∀ (acc : Word) (b : Byte), (crcStep acc b).toNat = natStep acc.toNat b.toNat) ∧
  ∀ s : List Byte, (checksum s).toNat = natChecksum (s.map BitVec.toNat)

/-- 40_checksum.md section 2: `crc_step` is linear over GF(2) in the pair of its arguments. -/
def Obligations.CrcStepIsLinear : Prop :=
  ∀ (a1 a2 : Word) (b1 b2 : Byte), crcStep (a1 ^^^ a2) (b1 ^^^ b2) = crcStep a1 b1 ^^^ crcStep a2 b2

/-- 95_test_vectors.md, vectors X13 and X14: a byte string followed by its own checksum, high byte first, always has the
checksum `0xE2F0`. -/
def Obligations.ChecksumResidueIsConstant : Prop :=
  ∀ s : List Byte, checksum (s ++ [hiByte (checksum s), loByte (checksum s)]) = 0xE2F0

/-- 40_checksum.md section 2, the sentence "Reference value." (which the spec derives): the value and its trace, round by
round. -/
def Obligations.ReferenceChecksumTrace : Prop :=
  checksum [0x21, 0x0C] = 0x16AB ∧
  (0xFFFF ^^^ ((0x21 : Byte).setWidth 16 <<< 8) : Word) = 0xDEFF ∧
  [1, 2, 3, 4, 5, 6, 7, 8].map (fun n => crcRounds n 0xDEFF) =
    [0xADDF, 0x4B9F, 0x973E, 0x3E5D, 0x7CBA, 0xF974, 0xE2C9, 0xD5B3] ∧
  (0xD5B3 ^^^ ((0x0C : Byte).setWidth 16 <<< 8) : Word) = 0xD9B3 ∧
  [1, 2, 3, 4, 5, 6, 7, 8].map (fun n => crcRounds n 0xD9B3) =
    [0xA347, 0x56AF, 0xAD5E, 0x4A9D, 0x953A, 0x3A55, 0x74AA, 0xE954] ∧
  (0xE954 ^^^ 0xFFFF : Word) = 0x16AB

/-- 30_encoding.md section 1, the pseudo-instruction `CRC16`, and 40_checksum.md section 2, its first law (both of which the
spec derives): the requests of `CRC16 b0, ..., b(n-1)`, presented in order to an idle block, leave the checksum in `RESULT` and
its complement in `CRC_ACC`, and change nothing else but the illegal flag and the words taken. -/
def Obligations.Crc16LeavesChecksumInResult : Prop :=
  ∀ (s : State) (bytes : List Byte) (r : List Word), s.phase = .idle → s.schedule = [] →
    s.reqs = (Asm.crc16 bytes).words ++ r →
    run (bytes.length + 2) s = .next { s with
      reqs := r, crcAcc := checksum bytes ^^^ 0xFFFF, result := checksum bytes, illegal := false }

/-- 10_state.md section 2: a step changes `CRC_ACC` only by taking `CRC_INIT` or `CRC_UPDATE`, `RESULT` only by taking
`CRC_FINAL`, `CMD` only by taking `ENCODE` or `SCAN`, or each by a reset. -/
def Obligations.RegistersChangeOnlyByTheirRequests : Prop :=
  ∀ s t : State, step s = .next t → s.schedule.head? ≠ some .hostReset →
    (t.crcAcc ≠ s.crcAcc ∨ t.result ≠ s.result ∨ t.cmd ≠ s.cmd) →
    blockTurn s = true ∧ s.phase = .idle ∧ ∃ w r, s.reqs = w :: r ∧
      (t.crcAcc ≠ s.crcAcc → decodeRequest w = .crcInit ∨ ∃ b, decodeRequest w = .crcUpdate b) ∧
      (t.result ≠ s.result → decodeRequest w = .crcFinal) ∧
      (t.cmd ≠ s.cmd → decodeRequest w = .encode ∨ decodeRequest w = .scan)

/-! ## The encoder, the drain and the send -/

/-- 41_encoder.md section 1, "The frame is constant" (which the spec derives): the command frame is constant, and its last two bytes are the checksum of bytes 2 and 3, high byte first. -/
def Obligations.CommandFrameIsConstant : Prop :=
  commandFrame.bytes = [0xBB, 0x02, 0x21, 0x0C, 0x16, 0xAB] ∧ commandFrame.bytes.length = 6 ∧
  (commandFrame.crcHi ++ commandFrame.crcLo : Word) = checksum [0x21, 0x0C]

/-- The command frame as an instruction (41_encoder.md section 2, 44_scan_cycle.md section 1): in `SEND` its six bytes go to
the transmit stream, `T0` is sampled, the reader hunts, and nothing else changes. -/
def Obligations.CommandFrameIsSent : Prop :=
  ∀ s : State, s.phase = .send →
    exec .cmdInventoryExt s = .next { s with
      txs := s.txs ++ [0xBB, 0x02, 0x21, 0x0C, 0x16, 0xAB], t0 := s.now, phase := .hunt }

/-- Rules R123 and R124: the drain step empties `RXQ`; the send step writes the six bytes of `CMD`, whatever they are, and
samples `T0` in the same step. -/
def Obligations.DrainAndSendActions : Prop :=
  (∀ s : State, blockTurn s = true → s.phase = .drain →
    step s = .next { s with schedule := s.schedule.tail, rxq := [], phase := .send }) ∧
  (∀ s : State, blockTurn s = true → s.phase = .send →
    step s = .next { s with
      schedule := s.schedule.tail, txs := s.txs ++ s.cmd.bytes, t0 := s.now, phase := .hunt })

/-- 41_encoder.md section 2, its last sentence (which the spec derives): the drain discards what `RXQ` holds at that step; the
bytes that arrive between the drain and the send stay in `RXQ` for the reader of the same cycle. -/
def Obligations.DrainDiscardsAndLaterBytesStay : Prop :=
  ∀ (s : State) (bytes : List Byte) (es : List Event), s.phase = .drain →
    s.schedule = .codec :: (bytes.map .rxByte ++ .codec :: es) →
    run (bytes.length + 2) s = .next { s with
      schedule := es, rxq := bytes, txs := s.txs ++ s.cmd.bytes, t0 := s.now, phase := .hunt }

/-! ## The reader -/

/-- Rules R145, R148 and R150: when 200 ms or more have passed since the send, a reader step ends the window, whether or not
a byte is available; the byte stays in `RXQ` and no record is emitted. -/
def Obligations.DeadlineEndsTheWindow : Prop :=
  ∀ s : State, blockTurn s = true → readerPhase s.phase = true → 200 ≤ (s.now - s.t0).toNat →
    step s = .next { s with
      schedule := s.schedule.tail, outcome := if s.phase = .hunt then .noFrame else .partialTimeout, phase := .idle }

/-- 42_reader.md section 1, the poll without a byte: a poll in an open window without a byte changes nothing. -/
def Obligations.EmptyPollChangesNothing : Prop :=
  ∀ s : State, blockTurn s = true → readerPhase s.phase = true → (s.now - s.t0).toNat < 200 → s.rxq = [] →
    step s = .next (turnTaken s)

/-- Rule R144: while hunting, a start marker is stored and the length is awaited; any other byte is discarded. -/
def Obligations.HuntTakesStartMarkerOnly : Prop :=
  ∀ (s : State) (b : Byte) (r : List Byte), blockTurn s = true → s.phase = .hunt →
    (s.now - s.t0).toNat < 200 → s.rxq = b :: r →
    step s = .next (if b = 0xBB
      then { s with schedule := s.schedule.tail, rxq := r, fb := memWrite s.fb 0 b, phase := .len }
      else { s with schedule := s.schedule.tail, rxq := r })

/-- Rule R146: a length of at most 64 is accepted. -/
def Obligations.LengthUpTo64IsAccepted : Prop :=
  ∀ (s : State) (b : Byte) (r : List Byte), blockTurn s = true → s.phase = .len →
    (s.now - s.t0).toNat < 200 → s.rxq = b :: r → b.toNat ≤ 64 →
    step s = .next { s with
      schedule := s.schedule.tail, rxq := r, len := b, fb := memWrite s.fb 1 b, idx := 2, phase := .body }

/-- Rule R147: a length above 64 is counted, saturating at 255, and the reader hunts again in the same window; the length
byte is consumed. -/
def Obligations.LengthAbove64IsRejectedAndCounted : Prop :=
  ∀ (s : State) (b : Byte) (r : List Byte), blockTurn s = true → s.phase = .len →
    (s.now - s.t0).toNat < 200 → s.rxq = b :: r → 64 < b.toNat →
    step s = .next { s with
      schedule := s.schedule.tail, rxq := r, len := b, oversizeCnt := BitVec.ofNat 8 (min (s.oversizeCnt.toNat + 1) 255), phase := .hunt }

/-- The rejected length as an instruction (42_reader.md section 2): in `LEN` it records the length, counts it and returns to
the hunt, and nothing else changes. -/
def Obligations.OversizeMessageReturnsToHunt : Prop :=
  ∀ (s : State) (l : Byte), s.phase = .len →
    exec (.rspOversize l) s = .next { s with
      len := l, oversizeCnt := BitVec.ofNat 8 (min (s.oversizeCnt.toNat + 1) 255), phase := .hunt }

/-- 42_reader.md section 2, the body: a body byte is stored at `IDX`, whatever its value, and the frame is complete when `IDX`
becomes `L + 4` (which the spec derives). `IDX < 68` is the model's condition for the byte to exist, log 7; the invariant of
10_state.md section 4 gives it. -/
def Obligations.BodyByteIsStored : Prop :=
  ∀ (s : State) (b : Byte) (r : List Byte), blockTurn s = true → s.phase = .body →
    (s.now - s.t0).toNat < 200 → s.rxq = b :: r → s.idx.toNat < 68 →
    step s = .next { s with
      schedule := s.schedule.tail, rxq := r, fb := memWrite s.fb s.idx.toNat b, idx := s.idx + 1,
      phase := if s.idx.toNat + 1 = s.len.toNat + 4 then .decode else .body }

/-- The frame buffer's reads and writes: a byte written is the byte read there, every other byte reads as before, and the
canonical form is kept. -/
def Obligations.FrameBufferReadsWhatWasWritten : Prop :=
  ∀ (m : Memory) (a : Nat) (b : Byte), Memory.wf m = true →
    memRead (memWrite m a b) a = b ∧ (∀ a', a' ≠ a → memRead (memWrite m a b) a' = memRead m a') ∧
    Memory.wf (memWrite m a b) = true

/-- The reader assembles a frame (42_reader.md): from the hunt, in an open window, with noise, then a frame of `L + 4` bytes,
then other bytes in `RXQ`, it discards the noise, stores exactly the frame, leaves the other bytes, and stands at the decode;
nothing else changes. -/
def Obligations.ReaderAssemblesExactlyTheFrame : Prop :=
  ∀ (s : State) (noise body rest : List Byte) (l : Byte), s.phase = .hunt → s.schedule = [] →
    s.windowOpen = true → Memory.wf s.fb = true → (∀ b ∈ noise, b ≠ 0xBB) → l.toNat ≤ 64 →
    body.length = l.toNat + 2 → s.rxq = noise ++ 0xBB :: l :: (body ++ rest) →
    ∃ fb, run (noise.length + 2 + body.length) s = .next { s with
        phase := .decode, len := l, idx := l + 4, fb := fb, rxq := rest } ∧
      memSlice fb 0 (l.toNat + 4) = 0xBB :: l :: body ∧ Memory.wf fb = true ∧
      ∀ i, l.toNat + 4 ≤ i → memRead fb i = memRead s.fb i

/-- 42_reader.md section 3: whatever arrives and whatever the host does, if the time input has reached 200 ms since the send
when the block next moves, that move ends the cycle, with no record and nothing transmitted. -/
def Obligations.WindowEndsOnceTimeHasPassed : Prop :=
  ∀ (s : State) (es rest : List Event), readerPhase s.phase = true → (∀ e ∈ es, isArrival e = true) →
    s.schedule = es ++ .codec :: rest → 200 ≤ (s.now + ticks es - s.t0).toNat →
    ∃ t, run (es.length + 1) s = .next t ∧ t.phase = .idle ∧ t.schedule = rest ∧
      t.outcome = (if s.phase = .hunt then .noFrame else .partialTimeout) ∧ t.sink = s.sink ∧ t.txs = s.txs

/-! ## The decoder -/

/-- The decode of a tag notification as an instruction (43_decoder.md): in `DECODE` it appends its records, writes its outcome,
returns to `IDLE`, and changes nothing else; the outcome is DECODED or ABORTED. -/
def Obligations.TagNotifyReportsAndFinishes : Prop :=
  ∀ (s : State) (payload : List Byte) (hi lo : Byte), s.phase = .decode →
    exec (.rspTagNotify payload hi lo) s = .next { s with
      sink := s.sink ++ (decodeTagPayload Config.masks payload).records,
      outcome := (decodeTagPayload Config.masks payload).outcome, phase := .idle } ∧
    ((decodeTagPayload Config.masks payload).outcome = .decoded ∨
      (decodeTagPayload Config.masks payload).outcome = .aborted)

/-- The ignored responses as instructions (43_decoder.md section 2): in `DECODE` they finish IGNORED and change nothing else. -/
def Obligations.IgnoredResponsesFinishIgnored : Prop :=
  ∀ s : State, s.phase = .decode →
    (∀ hi lo : Byte, exec (.rspEmpty hi lo) s = .next { s with outcome := .ignored, phase := .idle }) ∧
    (∀ (code : Byte) (rest : List Byte) (hi lo : Byte),
      exec (.rspOther code rest hi lo) s = .next { s with outcome := .ignored, phase := .idle })

/-- Rules R172 and R173 in the decode step: `L = 0` is ignored whatever `FB[2]` is; a code other than `0xE0` is ignored. And
the short payload of 43_decoder.md section 2: the code `0xE0` alone is aborted. None of them emits a record. (`L <= 64`
stands among the operands of the decode.) -/
def Obligations.ShortAndForeignFramesEmitNothing : Prop :=
  ∀ s : State, blockTurn s = true → s.phase = .decode → s.len.toNat ≤ 64 →
    (s.len = 0 →
      step s = .next { s with schedule := s.schedule.tail, outcome := .ignored, phase := .idle }) ∧
    (s.len ≠ 0 → memRead s.fb 2 ≠ 0xE0 →
      step s = .next { s with schedule := s.schedule.tail, outcome := .ignored, phase := .idle }) ∧
    (s.len = 1 → memRead s.fb 2 = 0xE0 →
      step s = .next { s with schedule := s.schedule.tail, outcome := .aborted, phase := .idle })

/-- Rule R170: the decode step finishes with the outcome, and emits the records, of the rule's pseudocode read by index; and
it changes nothing else. (`L <= 64` stands among the rule's operands; without it the model stops, log 7.) -/
def Obligations.DecodeStepFollowsIndexedPseudocode : Prop :=
  ∀ s : State, blockTurn s = true → s.phase = .decode → s.len.toNat ≤ 64 →
    step s = .next { s with
      schedule := s.schedule.tail, sink := s.sink ++ (ixDecode Config.masks s.fb s.len.toNat).2,
      outcome := (ixDecode Config.masks s.fb s.len.toNat).1, phase := .idle }

/-- 43_decoder.md section 4, its last law (which the spec derives): the outcome and the records of a decode depend only on `L`
and `FB[2 .. L+2)`. -/
def Obligations.DecodeDependsOnDeclaredPayloadOnly : Prop :=
  ∀ s t : State, blockTurn s = true → blockTurn t = true → s.phase = .decode → t.phase = .decode →
    s.len = t.len → s.len.toNat ≤ 64 → fbAgree s.fb t.fb 2 (s.len.toNat + 2) →
    ∃ s' t' records, step s = .next s' ∧ step t = .next t' ∧ s'.outcome = t'.outcome ∧
      s'.sink = s.sink ++ records ∧ t'.sink = t.sink ++ records

/-- 43_decoder.md section 4, "Round trip" (which the spec derives): for every admissible choice of the masks and every choice of fields that fits, the decoder of the payload built
from the fields finishes DECODED with nothing left over, and emits the separator and exactly the fields' records. -/
def Obligations.DecodeOfBuiltPayloadIsItsFields : Prop :=
  ∀ (m : Masks) (f : ResponseFields), m.admissible = true → 2 + f.bytes.length ≤ Config.maxLen →
    decodeTagPayload m (f.flags m :: f.bytes) =
      { outcome := .decoded, records := .sep :: f.records, left := 0 }

/-- 30_encoding.md section 3, the last sentence on the header flags: frames whose flags are `0x07` or `0x00` decode alike under every admissible choice of the
masks. -/
def Obligations.FlagsSevenAndZeroNeedNoMaskChoice : Prop :=
  ∀ (m n : Masks) (p : List Byte), m.admissible = true → n.admissible = true →
    decodeTagPayload m (0x07 :: p) = decodeTagPayload n (0x07 :: p) ∧
    decodeTagPayload m (0x00 :: p) = { outcome := .decoded, records := [.sep], left := p.length }

/-- 43_decoder.md section 2, the end: payload bytes after the last selected field change neither outcome nor records. -/
def Obligations.TrailingPayloadIsIgnored : Prop :=
  ∀ (m : Masks) (p x : List Byte) (rs : List Record) (k : Nat),
    decodeTagPayload m p = { outcome := .decoded, records := rs, left := k } →
    decodeTagPayload m (p ++ x) = { outcome := .decoded, records := rs, left := k + x.length }

/-- 43_decoder.md section 2 (abort): the records of a payload cut short are the first records of the longer payload. -/
def Obligations.CutPayloadEmitsAnInitialPart : Prop :=
  ∀ (m : Masks) (p x : List Byte), ∃ more,
    (decodeTagPayload m (p ++ x)).records = (decodeTagPayload m p).records ++ more

/-- 43_decoder.md section 2, the sink records: a frame's records are the separator, then at most one EPC, one TID and one RSSI in that order, each only if its
flag selects it, and all that are selected if the outcome is DECODED; with no flags byte there is none. -/
def Obligations.RecordsComeInFixedOrder : Prop :=
  ∀ (m : Masks) (p : List Byte),
    (p = [] ∧ (decodeTagPayload m p).records = []) ∨
    ∃ (flags : Byte) (q : List Byte) (e t : Option (List Byte)) (r : Option Word), p = flags :: q ∧
      (decodeTagPayload m p).records =
        .sep :: (e.toList.map .epc ++ t.toList.map .tid ++ r.toList.map .rssi) ∧
      (e.isSome = true → selected flags m.epc = true) ∧ (t.isSome = true → selected flags m.tid = true) ∧
      (r.isSome = true → selected flags m.rssi = true) ∧
      ((decodeTagPayload m p).outcome = .decoded →
        e.isSome = selected flags m.epc ∧ t.isSome = selected flags m.tid ∧ r.isSome = selected flags m.rssi)

/-- 30_encoding.md section 3, the operand assembly: the RSSI value is the big-endian two's-complement reading of its two bytes. -/
def Obligations.RssiIsBigEndianSigned : Prop :=
  ∀ hi lo : Byte, (rssiRaw hi lo).toInt =
    if 256 * hi.toNat + lo.toNat < 0x8000 then (256 * hi.toNat + lo.toNat : Int)
    else (256 * hi.toNat + lo.toNat : Int) - 65536

/-! ## The text of the sink -/

/-- 43_decoder.md section 3: the hexadecimal text of a byte string is, byte by byte and first byte first, the upper-case digit of
`b / 16` and then the digit of `b mod 16`; so it is two characters a byte and determines the bytes (the reason
92_eei_decisions.md D27 gives for the leading zero). -/
def Obligations.HexTextDeterminesBytes : Prop :=
  (∀ s : List Byte, hexText s = s.flatMap fun b =>
    let digit (n : Nat) : Char :=
      ['0', '1', '2', '3', '4', '5', '6', '7', '8', '9', 'A', 'B', 'C', 'D', 'E', 'F'].getD n '?'
    [digit (b.toNat / 16), digit (b.toNat % 16)]) ∧
  (∀ s : List Byte, (hexText s).length = 2 * s.length) ∧
  ∀ s t : List Byte, hexText s = hexText t → s = t

/-- Rule R186: `dec2(raw)` has a minus sign iff `raw` is negative, its digits are those of `|raw|`, its point stands before the
last two, and its integer part has no leading zero but for the value zero. -/
def Obligations.RssiTextIsExactDecimal : Prop :=
  ∀ raw : Word, ∃ whole frac : List Char,
    dec2 raw = (if raw.toInt < 0 then ['-'] else []) ++ whole ++ '.' :: frac ∧ frac.length = 2 ∧
    (∀ c ∈ whole ++ frac, c.isDigit = true) ∧ digitsNumber (whole ++ frac) = raw.toInt.natAbs ∧
    (whole = ['0'] ∨ (whole ≠ [] ∧ whole.head? ≠ some '0'))

/-! ## The machine as a whole -/

/-- The invariant of 10_state.md section 4 (which the spec derives), in the model's inductive form, holds after reset. -/
def Obligations.ResetMeetsInvariant : Prop := StateOk State.reset

/-- 10_state.md section 4 (which the spec derives): every step from a state that meets the invariant leads to one that meets it. -/
def Obligations.StepKeepsInvariant : Prop :=
  ∀ s t : State, StateOk s → step s = .next t → StateOk t

/-- "No condition in this subsystem is fatal" (44_scan_cycle.md section 1, 60_exceptions.md section 1): from every state that meets the invariant
the machine has a next state. -/
def Obligations.NoConditionIsFatal : Prop :=
  ∀ s : State, StateOk s → ∃ t, step s = .next t

/-- 44_scan_cycle.md section 2, what carries over (which the spec derives): two machines at the same point of the same cycle, under the same environment, take the same next step and emit
and transmit the same, whatever each carried over from earlier cycles; and they stand again at the same point. -/
def Obligations.CarriedOverStateHasNoInfluence : Prop :=
  ∀ s t s' : State, StateOk s → StateOk t → sameCycle s t → step s = .next s' →
    ∃ t' records sent, step t = .next t' ∧ sameCycle s' t' ∧
      s'.sink = s.sink ++ records ∧ t'.sink = t.sink ++ records ∧
      s'.txs = s.txs ++ sent ∧ t'.txs = t.txs ++ sent

/-- 44_scan_cycle.md section 3: while a `SCAN` is in progress the block takes no request: the words the host holds stay. -/
def Obligations.BusyBlockTakesNoRequest : Prop :=
  ∀ s t : State, blockTurn s = true → s.phase ≠ .idle → step s = .next t → t.reqs = s.reqs

/-- 44_scan_cycle.md sections 1 and 3: the block leaves `IDLE` only by taking `SCAN`, to `DRAIN`; and it comes back to `IDLE`
only with one of the five outcomes of a cycle, or by a reset. -/
def Obligations.CycleBeginsWithScanEndsWithOutcome : Prop :=
  ∀ s t : State, step s = .next t →
    (s.phase = .idle → t.phase ≠ .idle →
      blockTurn s = true ∧ t.phase = .drain ∧ ∃ r, s.reqs = 0x0005 :: r) ∧
    (s.phase ≠ .idle → t.phase = .idle →
      s.schedule.head? = some .hostReset ∨ t.outcome ≠ .none)

/-- 10_state.md section 3: nothing is ever removed from the transmit stream or the sink; a step adds to the first only the six
bytes of `CMD`, in `SEND`, and to the second only in `DECODE`. -/
def Obligations.OutwardStreamsOnlyGrow : Prop :=
  ∀ s t : State, step s = .next t →
    (t.txs = s.txs ∨ (s.phase = .send ∧ t.txs = s.txs ++ s.cmd.bytes)) ∧
    (t.sink = s.sink ∨ (s.phase = .decode ∧ ∃ records, t.sink = s.sink ++ records))

/-- A whole scan cycle (44_scan_cycle.md, with rules of the reader and the decoder): a `SCAN` on the port of an idle block; the
drain, the send, less than 200 ms; then noise and the tag notification of any fields that fit arrive. The cycle reports the
separator and exactly the fields' records, ends DECODED, has transmitted the command frame once, and leaves the checksum
registers, the host's words and an empty receive queue; stale bytes in `RXQ` have no effect. -/
def Obligations.ScanCycleReportsTheTag : Prop :=
  ∀ (s : State) (r : List Word) (d : Millis) (noise : List Byte) (f : ResponseFields) (hi lo : Byte),
    s.phase = .idle → s.reqs = 0x0005 :: r → Memory.wf s.fb = true → d.toNat < 200 →
    (∀ b ∈ noise, b ≠ 0xBB) → 2 + f.bytes.length ≤ 64 →
    s.schedule = [.codec, .codec, .codec, .tick d] ++
      (noise ++ f.frame Config.masks hi lo).map .rxByte ++
      List.replicate (noise.length + f.bytes.length + 7) .codec →
    ∃ fb, run s.schedule.length s = .next { s with
      schedule := [], reqs := r, illegal := false, oversizeCnt := 0, cmd := commandFrame,
      txs := s.txs ++ [0xBB, 0x02, 0x21, 0x0C, 0x16, 0xAB], t0 := s.now, now := s.now + d, rxq := [],
      len := BitVec.ofNat 8 (2 + f.bytes.length), idx := BitVec.ofNat 8 (6 + f.bytes.length), fb := fb,
      sink := s.sink ++ .sep :: f.records, outcome := .decoded, phase := .idle }

/-! ## The host and the environment -/

/-- Rule R30: what the read port returns, register by register, in numbers, the outcome by the numbers of its codes
(10_state.md section 2, 60_exceptions.md section 1). -/
def Obligations.RegisterMapReadsFields : Prop :=
  ∀ s : State,
    (s.regRead 0).toNat = 256 * s.oversizeCnt.toNat +
      16 * (match s.outcome with
        | .none => 0
        | .decoded => 1
        | .noFrame => 2
        | .partialTimeout => 3
        | .ignored => 4
        | .aborted => 5) +
      (if s.illegal then 2 else 0) + (if s.phase = .idle then 1 else 0) ∧
    s.regRead 1 = s.crcAcc ∧ s.regRead 2 = s.result ∧
    [3, 4, 5, 6, 7, 8].map (fun i => (s.regRead i).toNat) = s.cmd.bytes.map BitVec.toNat ∧
    ∀ i : BitVec 4, 9 ≤ i.toNat → s.regRead i = 0

/-- Rules R250 and R251: a reset, in any state, sets every element of the block to the value of rule R42 and leaves the
environment and the host as they were. -/
def Obligations.ResetRestoresBlockOnly : Prop :=
  ∀ (s : State) (es : List Event), s.schedule = .hostReset :: es →
    step s = .next {
      crcAcc := 0xFFFF, result := 0, cmd := ⟨0, 0, 0, 0, 0, 0⟩, illegal := false, outcome := .none,
      oversizeCnt := 0, phase := .idle, len := 0, idx := 0, t0 := 0, fb := [],
      rxq := s.rxq, txs := s.txs, now := s.now, sink := s.sink, reqs := s.reqs, reads := s.reads,
      loop := s.loop, schedule := es }

/-- The moves of the environment and of the host (10_state.md sections 2 and 3): a received byte is appended to `RXQ`, time
advances modulo `2^32` (log 15), an issued word is held after those held already (log 2), and a register read changes nothing but the model's
own record of what it returned (log 13). -/
def Obligations.EnvironmentMovesTouchTheirOwn : Prop :=
  ∀ (s : State) (es : List Event),
    (∀ b, s.schedule = .rxByte b :: es → step s = .next { s with schedule := es, rxq := s.rxq ++ [b] }) ∧
    (∀ d, s.schedule = .tick d :: es → step s = .next { s with schedule := es, now := s.now + d }) ∧
    (∀ w, s.schedule = .hostRequest w :: es → step s = .next { s with schedule := es, reqs := s.reqs ++ [w] }) ∧
    (∀ i, s.schedule = .hostRead i :: es →
      step s = .next { s with schedule := es, reads := s.reads ++ [⟨i, s.regRead i⟩] })

/-- The host loop (44_scan_cycle.md section 2, log 14): it issues `SCAN`, waits until the word was taken and `READY = 1`, waits
100 ms by its own clock, and issues `SCAN` again. -/
def Obligations.HostLoopWaitsForReadyAndIdleDelay : Prop :=
  ∀ (s : State) (clock : Millis) (es : List Event), s.schedule = .hostLoop clock :: es →
    (s.loop = .start → step s = .next { s with schedule := es, reqs := s.reqs ++ [0x0005], loop := .waiting }) ∧
    (s.loop = .waiting → step s = .next { s with
      schedule := es, loop := if s.reqs = [] ∧ s.phase = .idle then .idling clock else .waiting }) ∧
    (∀ since, s.loop = .idling since → step s = .next (if 100 ≤ (clock - since).toNat
      then { s with schedule := es, reqs := s.reqs ++ [0x0005], loop := .waiting }
      else { s with schedule := es }))

/-- 30_encoding.md section 1, the assembly syntax, with the spellings of log 18: reading the text of a program gives the program back. -/
def Obligations.AssemblyTextReadsBack : Prop :=
  ∀ p : List Asm, parseProgram (programText p) = some p
end

