-- ==== Sys2Proof/Laws/Memory.lean ====
section
/-! SUPPORT. The laws of the frame buffer's memory: what is read after a write, that the canonical form and the range of
addresses are kept, and what slices read. -/

namespace Sys2Proof.Machine

@[simp] theorem memRead_nil (a : Nat) : memRead [] a = 0 := rfl

theorem memRead_cons (x : Nat) (v : Byte) (r : Memory) (a : Nat) :
    memRead ((x, v) :: r) a = if a = x then v else memRead r a := rfl

/-- No cell at `a`: the unlisted byte is read. -/
theorem memRead_of_forall_ne {m : Memory} {a : Nat} (h : ∀ c ∈ m, c.1 ≠ a) : memRead m a = unlistedByte := by
  induction m with
  | nil => rfl
  | cons c r ih =>
    obtain ⟨x, v⟩ := c
    rw [memRead_cons, if_neg (fun e => h (x, v) (by simp) e.symm)]
    exact ih fun c hc => h c (by simp [hc])

/-- The canonical form of a memory with one cell in front. -/
theorem Memory.wf_cons {x : Nat} {v : Byte} {r : Memory} :
    Memory.wf ((x, v) :: r) = true ↔ v ≠ unlistedByte ∧ (∀ c ∈ r, x < c.1) ∧ Memory.wf r = true := by
  simp [Memory.wf, and_assoc]

theorem memRead_memCons_ne {a a' : Nat} {b : Byte} (m : Memory) (h : a' ≠ a) :
    memRead (memCons a b m) a' = memRead m a' := by
  unfold memCons
  split
  · rfl
  · rw [memRead_cons, if_neg h]

theorem memRead_memCons_self {a : Nat} {b : Byte} {m : Memory} (h : ∀ c ∈ m, a < c.1) :
    memRead (memCons a b m) a = b := by
  unfold memCons
  split
  · next hb => rw [hb]; exact memRead_of_forall_ne fun c hc => (h c hc).ne'
  · rw [memRead_cons, if_pos rfl]

/-- The cells of `memCons`: the new one or an old one. -/
theorem mem_memCons {a : Nat} {b : Byte} {m : Memory} {c : Host.Cell} (h : c ∈ memCons a b m) :
    c = (a, b) ∨ c ∈ m := by
  unfold memCons at h
  split at h
  · exact .inr h
  · simpa using h

/-- The cells of a written memory: the new one or an old one. -/
theorem mem_memWrite {m : Memory} {a : Nat} {b : Byte} {c : Host.Cell} (h : c ∈ memWrite m a b) :
    c = (a, b) ∨ c ∈ m := by
  induction m with
  | nil => exact mem_memCons h
  | cons d r ih =>
    obtain ⟨x, v⟩ := d
    simp only [memWrite] at h
    split at h
    · exact mem_memCons h
    split at h
    · exact (mem_memCons h).imp_right (List.mem_cons_of_mem _)
    · rcases List.mem_cons.1 h with rfl | h
      · exact .inr (by simp)
      · exact (ih h).imp_right (List.mem_cons_of_mem _)

theorem Memory.wf_memCons {a : Nat} {b : Byte} {m : Memory} (hm : Memory.wf m = true) (h : ∀ c ∈ m, a < c.1) :
    Memory.wf (memCons a b m) = true := by
  unfold memCons
  split
  · exact hm
  · next hb => exact Memory.wf_cons.2 ⟨hb, h, hm⟩

/-- Every write keeps the canonical form. -/
theorem Memory.wf_memWrite {m : Memory} (a : Nat) (b : Byte) (hm : Memory.wf m = true) :
    Memory.wf (memWrite m a b) = true := by
  induction m with
  | nil => exact Memory.wf_memCons hm (by simp)
  | cons d r ih =>
    obtain ⟨x, v⟩ := d
    obtain ⟨hv, hlt, hr⟩ := Memory.wf_cons.1 hm
    simp only [memWrite]
    split
    · next h =>
      refine Memory.wf_memCons hm fun c hc => ?_
      rcases List.mem_cons.1 hc with rfl | hc
      · exact h
      · exact h.trans (hlt c hc)
    split
    · next h => exact Memory.wf_memCons hr (by simpa [h] using hlt)
    · next h h' =>
      refine Memory.wf_cons.2 ⟨hv, fun c hc => ?_, ih hr⟩
      rcases mem_memWrite hc with rfl | hc
      · show x < a; omega
      · exact hlt c hc

/-- The byte at another address reads as before, in any memory. -/
theorem memRead_memWrite_ne {a a' : Nat} (m : Memory) (b : Byte) (h : a' ≠ a) :
    memRead (memWrite m a b) a' = memRead m a' := by
  induction m with
  | nil => exact memRead_memCons_ne _ h
  | cons d r ih =>
    obtain ⟨x, v⟩ := d
    simp only [memWrite]
    split
    · exact memRead_memCons_ne _ h
    split
    · next h' => rw [memRead_memCons_ne _ h, memRead_cons, if_neg (h' ▸ h)]
    · rw [memRead_cons, memRead_cons, ih]

/-- The byte written is the byte read, in a canonical memory. -/
theorem memRead_memWrite_self {m : Memory} (a : Nat) (b : Byte) (hm : Memory.wf m = true) :
    memRead (memWrite m a b) a = b := by
  induction m with
  | nil => exact memRead_memCons_self (by simp)
  | cons d r ih =>
    obtain ⟨x, v⟩ := d
    obtain ⟨-, hlt, hr⟩ := Memory.wf_cons.1 hm
    simp only [memWrite]
    split
    · next h =>
      refine memRead_memCons_self fun c hc => ?_
      rcases List.mem_cons.1 hc with rfl | hc
      · exact h
      · exact h.trans (hlt c hc)
    split
    · next h => exact memRead_memCons_self (by simpa [h] using hlt)
    · next h h' => rw [memRead_cons, if_neg h', ih hr]

/-- A write inside the range of addresses keeps the range. -/
theorem all_lt_memWrite {m : Memory} {a n : Nat} (b : Byte) (ha : a < n)
    (hm : m.all (fun c => decide (c.1 < n)) = true) : (memWrite m a b).all (fun c => decide (c.1 < n)) = true := by
  simp only [List.all_eq_true, decide_eq_true_eq] at hm ⊢
  intro c hc
  rcases mem_memWrite hc with rfl | hc
  · exact ha
  · exact hm c hc

theorem fbOk_iff {m : Memory} : Safety.fbOk m = true ↔
    Memory.wf m = true ∧ m.all (fun c => decide (c.1 < Config.fbufCap)) = true := by
  unfold Safety.fbOk
  exact Bool.and_eq_true_iff

/-- A frame buffer in order is canonical. -/
theorem wf_of_fbOk {m : Memory} (h : Safety.fbOk m = true) : Memory.wf m = true := (fbOk_iff.1 h).1

/-- A write of an existing address keeps the frame buffer in order. -/
theorem fbOk_memWrite {m : Memory} {a : Nat} (b : Byte) (ha : a < Config.fbufCap) (hm : Safety.fbOk m = true) :
    Safety.fbOk (memWrite m a b) = true :=
  fbOk_iff.2 ⟨Memory.wf_memWrite a b (wf_of_fbOk hm), all_lt_memWrite b ha (fbOk_iff.1 hm).2⟩

/-! ### Slices -/

@[simp] theorem length_memSlice (m : Memory) (a n : Nat) : (memSlice m a n).length = n := by simp [memSlice]

@[simp] theorem memSlice_zero (m : Memory) (a : Nat) : memSlice m a 0 = [] := rfl

theorem memSlice_succ (m : Memory) (a n : Nat) : memSlice m a (n + 1) = memRead m a :: memSlice m (a + 1) n := by
  simp [memSlice, List.range_succ_eq_map, Function.comp_def, Nat.add_assoc, Nat.add_comm 1]

theorem memSlice_succ_last (m : Memory) (a n : Nat) : memSlice m a (n + 1) = memSlice m a n ++ [memRead m (a + n)] := by
  simp [memSlice, List.range_succ]

theorem memSlice_add (m : Memory) (a n k : Nat) : memSlice m a (n + k) = memSlice m a n ++ memSlice m (a + n) k := by
  induction k with
  | zero => simp
  | succ k ih => rw [← Nat.add_assoc, memSlice_succ_last, ih, memSlice_succ_last, List.append_assoc, Nat.add_assoc]

theorem take_memSlice (m : Memory) (a : Nat) {n k : Nat} (h : k ≤ n) : (memSlice m a n).take k = memSlice m a k := by
  obtain ⟨j, rfl⟩ := Nat.exists_eq_add_of_le h
  rw [memSlice_add, List.take_left' (by simp)]

theorem drop_memSlice (m : Memory) (a : Nat) {n k : Nat} (h : k ≤ n) :
    (memSlice m a n).drop k = memSlice m (a + k) (n - k) := by
  obtain ⟨j, rfl⟩ := Nat.exists_eq_add_of_le h
  rw [memSlice_add, List.drop_left' (by simp), Nat.add_sub_cancel_left]

/-- Equal bytes at every address of a slice give equal slices. -/
theorem memSlice_congr {m m' : Memory} {a n : Nat} (h : ∀ i, a ≤ i → i < a + n → memRead m i = memRead m' i) :
    memSlice m a n = memSlice m' a n := by
  induction n with
  | zero => rfl
  | succ n ih =>
    rw [memSlice_succ_last, memSlice_succ_last, ih fun i h1 h2 => h i h1 (by omega), h (a + n) (by omega) (by omega)]

/-- A write outside a slice leaves it. -/
theorem memSlice_memWrite_of_not_mem {m : Memory} {a n i : Nat} (b : Byte) (h : i < a ∨ a + n ≤ i) :
    memSlice (memWrite m i b) a n = memSlice m a n :=
  memSlice_congr fun j h1 h2 => memRead_memWrite_ne _ _ (by omega)

/-- Writing several bytes keeps the canonical form. -/
theorem Memory.wf_memWriteAll {m : Memory} (a : Nat) (bytes : List Byte) (hm : Memory.wf m = true) :
    Memory.wf (memWriteAll m a bytes) = true := by
  induction bytes generalizing m a with
  | nil => exact hm
  | cons b r ih => exact ih (a + 1) (Memory.wf_memWrite a b hm)

/-- The memory after reset is canonical. -/
theorem Memory.wf_reset : Memory.wf State.reset.fb = true := rfl

/-- The reset action leaves a canonical memory, whatever was there before. -/
theorem Memory.wf_resetBlock (s : State) : Memory.wf s.resetBlock.fb = true := rfl

end Sys2Proof.Machine
end

