-- ==== Sys2Proof/Laws/State.lean ====
section
/-! SUPPORT. One lemma per field per update of the state: what each shared operation does to each field. No later proof
unfolds a record update. -/

namespace Sys2Proof.Machine

/-! ### `State.finish` -/

@[simp] theorem State.finish_crcAcc (s : State) (code : CycleOutcome) : (s.finish code).crcAcc = s.crcAcc := rfl
@[simp] theorem State.finish_result (s : State) (code : CycleOutcome) : (s.finish code).result = s.result := rfl
@[simp] theorem State.finish_cmd (s : State) (code : CycleOutcome) : (s.finish code).cmd = s.cmd := rfl
@[simp] theorem State.finish_illegal (s : State) (code : CycleOutcome) : (s.finish code).illegal = s.illegal := rfl
@[simp] theorem State.finish_outcome (s : State) (code : CycleOutcome) : (s.finish code).outcome = code := rfl
@[simp] theorem State.finish_oversizeCnt (s : State) (code : CycleOutcome) : (s.finish code).oversizeCnt = s.oversizeCnt := rfl
@[simp] theorem State.finish_phase (s : State) (code : CycleOutcome) : (s.finish code).phase = .idle := rfl
@[simp] theorem State.finish_len (s : State) (code : CycleOutcome) : (s.finish code).len = s.len := rfl
@[simp] theorem State.finish_idx (s : State) (code : CycleOutcome) : (s.finish code).idx = s.idx := rfl
@[simp] theorem State.finish_t0 (s : State) (code : CycleOutcome) : (s.finish code).t0 = s.t0 := rfl
@[simp] theorem State.finish_fb (s : State) (code : CycleOutcome) : (s.finish code).fb = s.fb := rfl
@[simp] theorem State.finish_rxq (s : State) (code : CycleOutcome) : (s.finish code).rxq = s.rxq := rfl
@[simp] theorem State.finish_txs (s : State) (code : CycleOutcome) : (s.finish code).txs = s.txs := rfl
@[simp] theorem State.finish_now (s : State) (code : CycleOutcome) : (s.finish code).now = s.now := rfl
@[simp] theorem State.finish_sink (s : State) (code : CycleOutcome) : (s.finish code).sink = s.sink := rfl
@[simp] theorem State.finish_reqs (s : State) (code : CycleOutcome) : (s.finish code).reqs = s.reqs := rfl
@[simp] theorem State.finish_reads (s : State) (code : CycleOutcome) : (s.finish code).reads = s.reads := rfl
@[simp] theorem State.finish_loop (s : State) (code : CycleOutcome) : (s.finish code).loop = s.loop := rfl
@[simp] theorem State.finish_schedule (s : State) (code : CycleOutcome) : (s.finish code).schedule = s.schedule := rfl

/-! ### `State.emit` -/

@[simp] theorem State.emit_crcAcc (s : State) (rs : List Record) : (s.emit rs).crcAcc = s.crcAcc := rfl
@[simp] theorem State.emit_result (s : State) (rs : List Record) : (s.emit rs).result = s.result := rfl
@[simp] theorem State.emit_cmd (s : State) (rs : List Record) : (s.emit rs).cmd = s.cmd := rfl
@[simp] theorem State.emit_illegal (s : State) (rs : List Record) : (s.emit rs).illegal = s.illegal := rfl
@[simp] theorem State.emit_outcome (s : State) (rs : List Record) : (s.emit rs).outcome = s.outcome := rfl
@[simp] theorem State.emit_oversizeCnt (s : State) (rs : List Record) : (s.emit rs).oversizeCnt = s.oversizeCnt := rfl
@[simp] theorem State.emit_phase (s : State) (rs : List Record) : (s.emit rs).phase = s.phase := rfl
@[simp] theorem State.emit_len (s : State) (rs : List Record) : (s.emit rs).len = s.len := rfl
@[simp] theorem State.emit_idx (s : State) (rs : List Record) : (s.emit rs).idx = s.idx := rfl
@[simp] theorem State.emit_t0 (s : State) (rs : List Record) : (s.emit rs).t0 = s.t0 := rfl
@[simp] theorem State.emit_fb (s : State) (rs : List Record) : (s.emit rs).fb = s.fb := rfl
@[simp] theorem State.emit_rxq (s : State) (rs : List Record) : (s.emit rs).rxq = s.rxq := rfl
@[simp] theorem State.emit_txs (s : State) (rs : List Record) : (s.emit rs).txs = s.txs := rfl
@[simp] theorem State.emit_now (s : State) (rs : List Record) : (s.emit rs).now = s.now := rfl
@[simp] theorem State.emit_sink (s : State) (rs : List Record) : (s.emit rs).sink = s.sink ++ rs := rfl
@[simp] theorem State.emit_reqs (s : State) (rs : List Record) : (s.emit rs).reqs = s.reqs := rfl
@[simp] theorem State.emit_reads (s : State) (rs : List Record) : (s.emit rs).reads = s.reads := rfl
@[simp] theorem State.emit_loop (s : State) (rs : List Record) : (s.emit rs).loop = s.loop := rfl
@[simp] theorem State.emit_schedule (s : State) (rs : List Record) : (s.emit rs).schedule = s.schedule := rfl

/-! ### `State.drainRx` -/

@[simp] theorem State.drainRx_crcAcc (s : State) : s.drainRx.crcAcc = s.crcAcc := rfl
@[simp] theorem State.drainRx_result (s : State) : s.drainRx.result = s.result := rfl
@[simp] theorem State.drainRx_cmd (s : State) : s.drainRx.cmd = s.cmd := rfl
@[simp] theorem State.drainRx_illegal (s : State) : s.drainRx.illegal = s.illegal := rfl
@[simp] theorem State.drainRx_outcome (s : State) : s.drainRx.outcome = s.outcome := rfl
@[simp] theorem State.drainRx_oversizeCnt (s : State) : s.drainRx.oversizeCnt = s.oversizeCnt := rfl
@[simp] theorem State.drainRx_phase (s : State) : s.drainRx.phase = .send := rfl
@[simp] theorem State.drainRx_len (s : State) : s.drainRx.len = s.len := rfl
@[simp] theorem State.drainRx_idx (s : State) : s.drainRx.idx = s.idx := rfl
@[simp] theorem State.drainRx_t0 (s : State) : s.drainRx.t0 = s.t0 := rfl
@[simp] theorem State.drainRx_fb (s : State) : s.drainRx.fb = s.fb := rfl
@[simp] theorem State.drainRx_rxq (s : State) : s.drainRx.rxq = [] := rfl
@[simp] theorem State.drainRx_txs (s : State) : s.drainRx.txs = s.txs := rfl
@[simp] theorem State.drainRx_now (s : State) : s.drainRx.now = s.now := rfl
@[simp] theorem State.drainRx_sink (s : State) : s.drainRx.sink = s.sink := rfl
@[simp] theorem State.drainRx_reqs (s : State) : s.drainRx.reqs = s.reqs := rfl
@[simp] theorem State.drainRx_reads (s : State) : s.drainRx.reads = s.reads := rfl
@[simp] theorem State.drainRx_loop (s : State) : s.drainRx.loop = s.loop := rfl
@[simp] theorem State.drainRx_schedule (s : State) : s.drainRx.schedule = s.schedule := rfl

/-! ### `State.sendFrame` -/

@[simp] theorem State.sendFrame_crcAcc (s : State) (f : CmdFrame) : (s.sendFrame f).crcAcc = s.crcAcc := rfl
@[simp] theorem State.sendFrame_result (s : State) (f : CmdFrame) : (s.sendFrame f).result = s.result := rfl
@[simp] theorem State.sendFrame_cmd (s : State) (f : CmdFrame) : (s.sendFrame f).cmd = s.cmd := rfl
@[simp] theorem State.sendFrame_illegal (s : State) (f : CmdFrame) : (s.sendFrame f).illegal = s.illegal := rfl
@[simp] theorem State.sendFrame_outcome (s : State) (f : CmdFrame) : (s.sendFrame f).outcome = s.outcome := rfl
@[simp] theorem State.sendFrame_oversizeCnt (s : State) (f : CmdFrame) : (s.sendFrame f).oversizeCnt = s.oversizeCnt := rfl
@[simp] theorem State.sendFrame_phase (s : State) (f : CmdFrame) : (s.sendFrame f).phase = .hunt := rfl
@[simp] theorem State.sendFrame_len (s : State) (f : CmdFrame) : (s.sendFrame f).len = s.len := rfl
@[simp] theorem State.sendFrame_idx (s : State) (f : CmdFrame) : (s.sendFrame f).idx = s.idx := rfl
@[simp] theorem State.sendFrame_t0 (s : State) (f : CmdFrame) : (s.sendFrame f).t0 = s.now := rfl
@[simp] theorem State.sendFrame_fb (s : State) (f : CmdFrame) : (s.sendFrame f).fb = s.fb := rfl
@[simp] theorem State.sendFrame_rxq (s : State) (f : CmdFrame) : (s.sendFrame f).rxq = s.rxq := rfl
@[simp] theorem State.sendFrame_txs (s : State) (f : CmdFrame) : (s.sendFrame f).txs = s.txs ++ f.bytes := rfl
@[simp] theorem State.sendFrame_now (s : State) (f : CmdFrame) : (s.sendFrame f).now = s.now := rfl
@[simp] theorem State.sendFrame_sink (s : State) (f : CmdFrame) : (s.sendFrame f).sink = s.sink := rfl
@[simp] theorem State.sendFrame_reqs (s : State) (f : CmdFrame) : (s.sendFrame f).reqs = s.reqs := rfl
@[simp] theorem State.sendFrame_reads (s : State) (f : CmdFrame) : (s.sendFrame f).reads = s.reads := rfl
@[simp] theorem State.sendFrame_loop (s : State) (f : CmdFrame) : (s.sendFrame f).loop = s.loop := rfl
@[simp] theorem State.sendFrame_schedule (s : State) (f : CmdFrame) : (s.sendFrame f).schedule = s.schedule := rfl

/-! ### `State.setCmd` -/

@[simp] theorem State.setCmd_crcAcc (s : State) (f : CmdFrame) : (s.setCmd f).crcAcc = s.crcAcc := rfl
@[simp] theorem State.setCmd_result (s : State) (f : CmdFrame) : (s.setCmd f).result = s.result := rfl
@[simp] theorem State.setCmd_cmd (s : State) (f : CmdFrame) : (s.setCmd f).cmd = f := rfl
@[simp] theorem State.setCmd_illegal (s : State) (f : CmdFrame) : (s.setCmd f).illegal = s.illegal := rfl
@[simp] theorem State.setCmd_outcome (s : State) (f : CmdFrame) : (s.setCmd f).outcome = s.outcome := rfl
@[simp] theorem State.setCmd_oversizeCnt (s : State) (f : CmdFrame) : (s.setCmd f).oversizeCnt = s.oversizeCnt := rfl
@[simp] theorem State.setCmd_phase (s : State) (f : CmdFrame) : (s.setCmd f).phase = s.phase := rfl
@[simp] theorem State.setCmd_len (s : State) (f : CmdFrame) : (s.setCmd f).len = s.len := rfl
@[simp] theorem State.setCmd_idx (s : State) (f : CmdFrame) : (s.setCmd f).idx = s.idx := rfl
@[simp] theorem State.setCmd_t0 (s : State) (f : CmdFrame) : (s.setCmd f).t0 = s.t0 := rfl
@[simp] theorem State.setCmd_fb (s : State) (f : CmdFrame) : (s.setCmd f).fb = s.fb := rfl
@[simp] theorem State.setCmd_rxq (s : State) (f : CmdFrame) : (s.setCmd f).rxq = s.rxq := rfl
@[simp] theorem State.setCmd_txs (s : State) (f : CmdFrame) : (s.setCmd f).txs = s.txs := rfl
@[simp] theorem State.setCmd_now (s : State) (f : CmdFrame) : (s.setCmd f).now = s.now := rfl
@[simp] theorem State.setCmd_sink (s : State) (f : CmdFrame) : (s.setCmd f).sink = s.sink := rfl
@[simp] theorem State.setCmd_reqs (s : State) (f : CmdFrame) : (s.setCmd f).reqs = s.reqs := rfl
@[simp] theorem State.setCmd_reads (s : State) (f : CmdFrame) : (s.setCmd f).reads = s.reads := rfl
@[simp] theorem State.setCmd_loop (s : State) (f : CmdFrame) : (s.setCmd f).loop = s.loop := rfl
@[simp] theorem State.setCmd_schedule (s : State) (f : CmdFrame) : (s.setCmd f).schedule = s.schedule := rfl

/-! ### `State.clearIllegal` -/

@[simp] theorem State.clearIllegal_crcAcc (s : State) : s.clearIllegal.crcAcc = s.crcAcc := rfl
@[simp] theorem State.clearIllegal_result (s : State) : s.clearIllegal.result = s.result := rfl
@[simp] theorem State.clearIllegal_cmd (s : State) : s.clearIllegal.cmd = s.cmd := rfl
@[simp] theorem State.clearIllegal_illegal (s : State) : s.clearIllegal.illegal = false := rfl
@[simp] theorem State.clearIllegal_outcome (s : State) : s.clearIllegal.outcome = s.outcome := rfl
@[simp] theorem State.clearIllegal_oversizeCnt (s : State) : s.clearIllegal.oversizeCnt = s.oversizeCnt := rfl
@[simp] theorem State.clearIllegal_phase (s : State) : s.clearIllegal.phase = s.phase := rfl
@[simp] theorem State.clearIllegal_len (s : State) : s.clearIllegal.len = s.len := rfl
@[simp] theorem State.clearIllegal_idx (s : State) : s.clearIllegal.idx = s.idx := rfl
@[simp] theorem State.clearIllegal_t0 (s : State) : s.clearIllegal.t0 = s.t0 := rfl
@[simp] theorem State.clearIllegal_fb (s : State) : s.clearIllegal.fb = s.fb := rfl
@[simp] theorem State.clearIllegal_rxq (s : State) : s.clearIllegal.rxq = s.rxq := rfl
@[simp] theorem State.clearIllegal_txs (s : State) : s.clearIllegal.txs = s.txs := rfl
@[simp] theorem State.clearIllegal_now (s : State) : s.clearIllegal.now = s.now := rfl
@[simp] theorem State.clearIllegal_sink (s : State) : s.clearIllegal.sink = s.sink := rfl
@[simp] theorem State.clearIllegal_reqs (s : State) : s.clearIllegal.reqs = s.reqs := rfl
@[simp] theorem State.clearIllegal_reads (s : State) : s.clearIllegal.reads = s.reads := rfl
@[simp] theorem State.clearIllegal_loop (s : State) : s.clearIllegal.loop = s.loop := rfl
@[simp] theorem State.clearIllegal_schedule (s : State) : s.clearIllegal.schedule = s.schedule := rfl

/-! ### `State.writeFb` -/

@[simp] theorem State.writeFb_crcAcc (s : State) (i : Nat) (b : Byte) : (s.writeFb i b).crcAcc = s.crcAcc := rfl
@[simp] theorem State.writeFb_result (s : State) (i : Nat) (b : Byte) : (s.writeFb i b).result = s.result := rfl
@[simp] theorem State.writeFb_cmd (s : State) (i : Nat) (b : Byte) : (s.writeFb i b).cmd = s.cmd := rfl
@[simp] theorem State.writeFb_illegal (s : State) (i : Nat) (b : Byte) : (s.writeFb i b).illegal = s.illegal := rfl
@[simp] theorem State.writeFb_outcome (s : State) (i : Nat) (b : Byte) : (s.writeFb i b).outcome = s.outcome := rfl
@[simp] theorem State.writeFb_oversizeCnt (s : State) (i : Nat) (b : Byte) : (s.writeFb i b).oversizeCnt = s.oversizeCnt := rfl
@[simp] theorem State.writeFb_phase (s : State) (i : Nat) (b : Byte) : (s.writeFb i b).phase = s.phase := rfl
@[simp] theorem State.writeFb_len (s : State) (i : Nat) (b : Byte) : (s.writeFb i b).len = s.len := rfl
@[simp] theorem State.writeFb_idx (s : State) (i : Nat) (b : Byte) : (s.writeFb i b).idx = s.idx := rfl
@[simp] theorem State.writeFb_t0 (s : State) (i : Nat) (b : Byte) : (s.writeFb i b).t0 = s.t0 := rfl
@[simp] theorem State.writeFb_fb (s : State) (i : Nat) (b : Byte) : (s.writeFb i b).fb = memWrite s.fb i b := rfl
@[simp] theorem State.writeFb_rxq (s : State) (i : Nat) (b : Byte) : (s.writeFb i b).rxq = s.rxq := rfl
@[simp] theorem State.writeFb_txs (s : State) (i : Nat) (b : Byte) : (s.writeFb i b).txs = s.txs := rfl
@[simp] theorem State.writeFb_now (s : State) (i : Nat) (b : Byte) : (s.writeFb i b).now = s.now := rfl
@[simp] theorem State.writeFb_sink (s : State) (i : Nat) (b : Byte) : (s.writeFb i b).sink = s.sink := rfl
@[simp] theorem State.writeFb_reqs (s : State) (i : Nat) (b : Byte) : (s.writeFb i b).reqs = s.reqs := rfl
@[simp] theorem State.writeFb_reads (s : State) (i : Nat) (b : Byte) : (s.writeFb i b).reads = s.reads := rfl
@[simp] theorem State.writeFb_loop (s : State) (i : Nat) (b : Byte) : (s.writeFb i b).loop = s.loop := rfl
@[simp] theorem State.writeFb_schedule (s : State) (i : Nat) (b : Byte) : (s.writeFb i b).schedule = s.schedule := rfl

/-! ### `State.report` -/

@[simp] theorem State.report_crcAcc (s : State) (d : Decoded) : (s.report d).crcAcc = s.crcAcc := rfl
@[simp] theorem State.report_result (s : State) (d : Decoded) : (s.report d).result = s.result := rfl
@[simp] theorem State.report_cmd (s : State) (d : Decoded) : (s.report d).cmd = s.cmd := rfl
@[simp] theorem State.report_illegal (s : State) (d : Decoded) : (s.report d).illegal = s.illegal := rfl
@[simp] theorem State.report_outcome (s : State) (d : Decoded) : (s.report d).outcome = d.outcome := rfl
@[simp] theorem State.report_oversizeCnt (s : State) (d : Decoded) : (s.report d).oversizeCnt = s.oversizeCnt := rfl
@[simp] theorem State.report_phase (s : State) (d : Decoded) : (s.report d).phase = .idle := rfl
@[simp] theorem State.report_len (s : State) (d : Decoded) : (s.report d).len = s.len := rfl
@[simp] theorem State.report_idx (s : State) (d : Decoded) : (s.report d).idx = s.idx := rfl
@[simp] theorem State.report_t0 (s : State) (d : Decoded) : (s.report d).t0 = s.t0 := rfl
@[simp] theorem State.report_fb (s : State) (d : Decoded) : (s.report d).fb = s.fb := rfl
@[simp] theorem State.report_rxq (s : State) (d : Decoded) : (s.report d).rxq = s.rxq := rfl
@[simp] theorem State.report_txs (s : State) (d : Decoded) : (s.report d).txs = s.txs := rfl
@[simp] theorem State.report_now (s : State) (d : Decoded) : (s.report d).now = s.now := rfl
@[simp] theorem State.report_sink (s : State) (d : Decoded) : (s.report d).sink = s.sink ++ d.records := rfl
@[simp] theorem State.report_reqs (s : State) (d : Decoded) : (s.report d).reqs = s.reqs := rfl
@[simp] theorem State.report_reads (s : State) (d : Decoded) : (s.report d).reads = s.reads := rfl
@[simp] theorem State.report_loop (s : State) (d : Decoded) : (s.report d).loop = s.loop := rfl
@[simp] theorem State.report_schedule (s : State) (d : Decoded) : (s.report d).schedule = s.schedule := rfl

/-! ### `State.issue` -/

@[simp] theorem State.issue_crcAcc (s : State) (w : Word) : (s.issue w).crcAcc = s.crcAcc := rfl
@[simp] theorem State.issue_result (s : State) (w : Word) : (s.issue w).result = s.result := rfl
@[simp] theorem State.issue_cmd (s : State) (w : Word) : (s.issue w).cmd = s.cmd := rfl
@[simp] theorem State.issue_illegal (s : State) (w : Word) : (s.issue w).illegal = s.illegal := rfl
@[simp] theorem State.issue_outcome (s : State) (w : Word) : (s.issue w).outcome = s.outcome := rfl
@[simp] theorem State.issue_oversizeCnt (s : State) (w : Word) : (s.issue w).oversizeCnt = s.oversizeCnt := rfl
@[simp] theorem State.issue_phase (s : State) (w : Word) : (s.issue w).phase = s.phase := rfl
@[simp] theorem State.issue_len (s : State) (w : Word) : (s.issue w).len = s.len := rfl
@[simp] theorem State.issue_idx (s : State) (w : Word) : (s.issue w).idx = s.idx := rfl
@[simp] theorem State.issue_t0 (s : State) (w : Word) : (s.issue w).t0 = s.t0 := rfl
@[simp] theorem State.issue_fb (s : State) (w : Word) : (s.issue w).fb = s.fb := rfl
@[simp] theorem State.issue_rxq (s : State) (w : Word) : (s.issue w).rxq = s.rxq := rfl
@[simp] theorem State.issue_txs (s : State) (w : Word) : (s.issue w).txs = s.txs := rfl
@[simp] theorem State.issue_now (s : State) (w : Word) : (s.issue w).now = s.now := rfl
@[simp] theorem State.issue_sink (s : State) (w : Word) : (s.issue w).sink = s.sink := rfl
@[simp] theorem State.issue_reqs (s : State) (w : Word) : (s.issue w).reqs = s.reqs ++ [w] := rfl
@[simp] theorem State.issue_reads (s : State) (w : Word) : (s.issue w).reads = s.reads := rfl
@[simp] theorem State.issue_loop (s : State) (w : Word) : (s.issue w).loop = s.loop := rfl
@[simp] theorem State.issue_schedule (s : State) (w : Word) : (s.issue w).schedule = s.schedule := rfl

/-! ### `State.hostRead` -/

@[simp] theorem State.hostRead_crcAcc (s : State) (i : BitVec 4) : (s.hostRead i).crcAcc = s.crcAcc := rfl
@[simp] theorem State.hostRead_result (s : State) (i : BitVec 4) : (s.hostRead i).result = s.result := rfl
@[simp] theorem State.hostRead_cmd (s : State) (i : BitVec 4) : (s.hostRead i).cmd = s.cmd := rfl
@[simp] theorem State.hostRead_illegal (s : State) (i : BitVec 4) : (s.hostRead i).illegal = s.illegal := rfl
@[simp] theorem State.hostRead_outcome (s : State) (i : BitVec 4) : (s.hostRead i).outcome = s.outcome := rfl
@[simp] theorem State.hostRead_oversizeCnt (s : State) (i : BitVec 4) : (s.hostRead i).oversizeCnt = s.oversizeCnt := rfl
@[simp] theorem State.hostRead_phase (s : State) (i : BitVec 4) : (s.hostRead i).phase = s.phase := rfl
@[simp] theorem State.hostRead_len (s : State) (i : BitVec 4) : (s.hostRead i).len = s.len := rfl
@[simp] theorem State.hostRead_idx (s : State) (i : BitVec 4) : (s.hostRead i).idx = s.idx := rfl
@[simp] theorem State.hostRead_t0 (s : State) (i : BitVec 4) : (s.hostRead i).t0 = s.t0 := rfl
@[simp] theorem State.hostRead_fb (s : State) (i : BitVec 4) : (s.hostRead i).fb = s.fb := rfl
@[simp] theorem State.hostRead_rxq (s : State) (i : BitVec 4) : (s.hostRead i).rxq = s.rxq := rfl
@[simp] theorem State.hostRead_txs (s : State) (i : BitVec 4) : (s.hostRead i).txs = s.txs := rfl
@[simp] theorem State.hostRead_now (s : State) (i : BitVec 4) : (s.hostRead i).now = s.now := rfl
@[simp] theorem State.hostRead_sink (s : State) (i : BitVec 4) : (s.hostRead i).sink = s.sink := rfl
@[simp] theorem State.hostRead_reqs (s : State) (i : BitVec 4) : (s.hostRead i).reqs = s.reqs := rfl
@[simp] theorem State.hostRead_reads (s : State) (i : BitVec 4) : (s.hostRead i).reads = s.reads ++ [⟨i, s.regRead i⟩] := rfl
@[simp] theorem State.hostRead_loop (s : State) (i : BitVec 4) : (s.hostRead i).loop = s.loop := rfl
@[simp] theorem State.hostRead_schedule (s : State) (i : BitVec 4) : (s.hostRead i).schedule = s.schedule := rfl

/-! ### `State.receive` -/

@[simp] theorem State.receive_crcAcc (s : State) (b : Byte) : (s.receive b).crcAcc = s.crcAcc := rfl
@[simp] theorem State.receive_result (s : State) (b : Byte) : (s.receive b).result = s.result := rfl
@[simp] theorem State.receive_cmd (s : State) (b : Byte) : (s.receive b).cmd = s.cmd := rfl
@[simp] theorem State.receive_illegal (s : State) (b : Byte) : (s.receive b).illegal = s.illegal := rfl
@[simp] theorem State.receive_outcome (s : State) (b : Byte) : (s.receive b).outcome = s.outcome := rfl
@[simp] theorem State.receive_oversizeCnt (s : State) (b : Byte) : (s.receive b).oversizeCnt = s.oversizeCnt := rfl
@[simp] theorem State.receive_phase (s : State) (b : Byte) : (s.receive b).phase = s.phase := rfl
@[simp] theorem State.receive_len (s : State) (b : Byte) : (s.receive b).len = s.len := rfl
@[simp] theorem State.receive_idx (s : State) (b : Byte) : (s.receive b).idx = s.idx := rfl
@[simp] theorem State.receive_t0 (s : State) (b : Byte) : (s.receive b).t0 = s.t0 := rfl
@[simp] theorem State.receive_fb (s : State) (b : Byte) : (s.receive b).fb = s.fb := rfl
@[simp] theorem State.receive_rxq (s : State) (b : Byte) : (s.receive b).rxq = s.rxq ++ [b] := rfl
@[simp] theorem State.receive_txs (s : State) (b : Byte) : (s.receive b).txs = s.txs := rfl
@[simp] theorem State.receive_now (s : State) (b : Byte) : (s.receive b).now = s.now := rfl
@[simp] theorem State.receive_sink (s : State) (b : Byte) : (s.receive b).sink = s.sink := rfl
@[simp] theorem State.receive_reqs (s : State) (b : Byte) : (s.receive b).reqs = s.reqs := rfl
@[simp] theorem State.receive_reads (s : State) (b : Byte) : (s.receive b).reads = s.reads := rfl
@[simp] theorem State.receive_loop (s : State) (b : Byte) : (s.receive b).loop = s.loop := rfl
@[simp] theorem State.receive_schedule (s : State) (b : Byte) : (s.receive b).schedule = s.schedule := rfl

/-! ### `State.advance` -/

@[simp] theorem State.advance_crcAcc (s : State) (d : Millis) : (s.advance d).crcAcc = s.crcAcc := rfl
@[simp] theorem State.advance_result (s : State) (d : Millis) : (s.advance d).result = s.result := rfl
@[simp] theorem State.advance_cmd (s : State) (d : Millis) : (s.advance d).cmd = s.cmd := rfl
@[simp] theorem State.advance_illegal (s : State) (d : Millis) : (s.advance d).illegal = s.illegal := rfl
@[simp] theorem State.advance_outcome (s : State) (d : Millis) : (s.advance d).outcome = s.outcome := rfl
@[simp] theorem State.advance_oversizeCnt (s : State) (d : Millis) : (s.advance d).oversizeCnt = s.oversizeCnt := rfl
@[simp] theorem State.advance_phase (s : State) (d : Millis) : (s.advance d).phase = s.phase := rfl
@[simp] theorem State.advance_len (s : State) (d : Millis) : (s.advance d).len = s.len := rfl
@[simp] theorem State.advance_idx (s : State) (d : Millis) : (s.advance d).idx = s.idx := rfl
@[simp] theorem State.advance_t0 (s : State) (d : Millis) : (s.advance d).t0 = s.t0 := rfl
@[simp] theorem State.advance_fb (s : State) (d : Millis) : (s.advance d).fb = s.fb := rfl
@[simp] theorem State.advance_rxq (s : State) (d : Millis) : (s.advance d).rxq = s.rxq := rfl
@[simp] theorem State.advance_txs (s : State) (d : Millis) : (s.advance d).txs = s.txs := rfl
@[simp] theorem State.advance_now (s : State) (d : Millis) : (s.advance d).now = s.now + d := rfl
@[simp] theorem State.advance_sink (s : State) (d : Millis) : (s.advance d).sink = s.sink := rfl
@[simp] theorem State.advance_reqs (s : State) (d : Millis) : (s.advance d).reqs = s.reqs := rfl
@[simp] theorem State.advance_reads (s : State) (d : Millis) : (s.advance d).reads = s.reads := rfl
@[simp] theorem State.advance_loop (s : State) (d : Millis) : (s.advance d).loop = s.loop := rfl
@[simp] theorem State.advance_schedule (s : State) (d : Millis) : (s.advance d).schedule = s.schedule := rfl

/-! ### `State.resetBlock` -/

@[simp] theorem State.resetBlock_crcAcc (s : State) : s.resetBlock.crcAcc = State.reset.crcAcc := rfl
@[simp] theorem State.resetBlock_result (s : State) : s.resetBlock.result = State.reset.result := rfl
@[simp] theorem State.resetBlock_cmd (s : State) : s.resetBlock.cmd = State.reset.cmd := rfl
@[simp] theorem State.resetBlock_illegal (s : State) : s.resetBlock.illegal = State.reset.illegal := rfl
@[simp] theorem State.resetBlock_outcome (s : State) : s.resetBlock.outcome = State.reset.outcome := rfl
@[simp] theorem State.resetBlock_oversizeCnt (s : State) : s.resetBlock.oversizeCnt = State.reset.oversizeCnt := rfl
@[simp] theorem State.resetBlock_phase (s : State) : s.resetBlock.phase = State.reset.phase := rfl
@[simp] theorem State.resetBlock_len (s : State) : s.resetBlock.len = State.reset.len := rfl
@[simp] theorem State.resetBlock_idx (s : State) : s.resetBlock.idx = State.reset.idx := rfl
@[simp] theorem State.resetBlock_t0 (s : State) : s.resetBlock.t0 = State.reset.t0 := rfl
@[simp] theorem State.resetBlock_fb (s : State) : s.resetBlock.fb = State.reset.fb := rfl
@[simp] theorem State.resetBlock_rxq (s : State) : s.resetBlock.rxq = s.rxq := rfl
@[simp] theorem State.resetBlock_txs (s : State) : s.resetBlock.txs = s.txs := rfl
@[simp] theorem State.resetBlock_now (s : State) : s.resetBlock.now = s.now := rfl
@[simp] theorem State.resetBlock_sink (s : State) : s.resetBlock.sink = s.sink := rfl
@[simp] theorem State.resetBlock_reqs (s : State) : s.resetBlock.reqs = s.reqs := rfl
@[simp] theorem State.resetBlock_reads (s : State) : s.resetBlock.reads = s.reads := rfl
@[simp] theorem State.resetBlock_loop (s : State) : s.resetBlock.loop = s.loop := rfl
@[simp] theorem State.resetBlock_schedule (s : State) : s.resetBlock.schedule = s.schedule := rfl

/-! ### `State.takenIn` -/

theorem State.takenIn_of_phase {p : Phase} {s : State} (t : State) (h : s.phase = p) : s.takenIn p t = t := if_pos h

theorem State.takenIn_of_ne {p : Phase} {s : State} (t : State) (h : s.phase ≠ p) : s.takenIn p t = s := if_neg h

end Sys2Proof.Machine

namespace Sys2Proof.Safety

open Sys2Proof.Machine

/-! ### `turnTaken` -/

@[simp] theorem turnTaken_crcAcc (s : State) : (turnTaken s).crcAcc = s.crcAcc := rfl
@[simp] theorem turnTaken_result (s : State) : (turnTaken s).result = s.result := rfl
@[simp] theorem turnTaken_cmd (s : State) : (turnTaken s).cmd = s.cmd := rfl
@[simp] theorem turnTaken_illegal (s : State) : (turnTaken s).illegal = s.illegal := rfl
@[simp] theorem turnTaken_outcome (s : State) : (turnTaken s).outcome = s.outcome := rfl
@[simp] theorem turnTaken_oversizeCnt (s : State) : (turnTaken s).oversizeCnt = s.oversizeCnt := rfl
@[simp] theorem turnTaken_phase (s : State) : (turnTaken s).phase = s.phase := rfl
@[simp] theorem turnTaken_len (s : State) : (turnTaken s).len = s.len := rfl
@[simp] theorem turnTaken_idx (s : State) : (turnTaken s).idx = s.idx := rfl
@[simp] theorem turnTaken_t0 (s : State) : (turnTaken s).t0 = s.t0 := rfl
@[simp] theorem turnTaken_fb (s : State) : (turnTaken s).fb = s.fb := rfl
@[simp] theorem turnTaken_rxq (s : State) : (turnTaken s).rxq = s.rxq := rfl
@[simp] theorem turnTaken_txs (s : State) : (turnTaken s).txs = s.txs := rfl
@[simp] theorem turnTaken_now (s : State) : (turnTaken s).now = s.now := rfl
@[simp] theorem turnTaken_sink (s : State) : (turnTaken s).sink = s.sink := rfl
@[simp] theorem turnTaken_reqs (s : State) : (turnTaken s).reqs = s.reqs := rfl
@[simp] theorem turnTaken_reads (s : State) : (turnTaken s).reads = s.reads := rfl
@[simp] theorem turnTaken_loop (s : State) : (turnTaken s).loop = s.loop := rfl
@[simp] theorem turnTaken_schedule (s : State) : (turnTaken s).schedule = s.schedule.tail := rfl

@[simp] theorem turnTaken_windowOpen (s : State) : (turnTaken s).windowOpen = s.windowOpen := rfl

@[simp] theorem turnTaken_regRead (s : State) (i : BitVec 4) : (turnTaken s).regRead i = s.regRead i := rfl

end Sys2Proof.Safety
end

