-- ==== Sys2Proof/Laws/Step.lean ====
section
/-! SUPPORT. What one step can be: the block's step in its turn, another agent's move otherwise; and the run of several
steps. -/

namespace Sys2Proof.Safety

open Sys2Proof.Machine

/-- In its turn the block moves, the move at the head of the schedule used up. -/
theorem step_of_blockTurn {s : State} (h : blockTurn s = true) : step s = blockStep (turnTaken s) := by
  unfold blockTurn at h
  unfold step turn
  split at h <;> simp_all [turnTaken]
  congr 1
  cases s; simp_all

/-- In another agent's turn that agent moves: the step always answers a next state. -/
theorem step_of_not_blockTurn {s : State} (h : blockTurn s = false) :
    ∃ e es, s.schedule = e :: es ∧ e ≠ .codec ∧ step s = .next (envMove e { s with schedule := es }) := by
  unfold blockTurn at h
  split at h <;> simp_all [step, turn]

/-- What a step can be. -/
theorem step_cases (s : State) :
    (blockTurn s = true ∧ step s = blockStep (turnTaken s)) ∨
    (blockTurn s = false ∧ ∃ e es, s.schedule = e :: es ∧ e ≠ .codec ∧
      step s = .next (envMove e { s with schedule := es })) := by
  cases h : blockTurn s with
  | true => exact .inl ⟨rfl, step_of_blockTurn h⟩
  | false => exact .inr ⟨rfl, step_of_not_blockTurn h⟩

theorem step_of_schedule {s : State} {e : Event} {es : List Event} (h : s.schedule = e :: es) (he : e ≠ .codec) :
    step s = .next (envMove e { s with schedule := es }) := by
  unfold step turn
  rw [h]
  cases e <;> simp_all

theorem blockTurn_of_nil {s : State} (h : s.schedule = []) : blockTurn s = true := by simp [blockTurn, h]

theorem blockTurn_of_codec {s : State} {es : List Event} (h : s.schedule = .codec :: es) : blockTurn s = true := by
  simp [blockTurn, h]

/-- With nothing scheduled a turn uses nothing up. -/
theorem turnTaken_of_nil {s : State} (h : s.schedule = []) : turnTaken s = s := by cases s; simp_all [turnTaken]

theorem turnTaken_of_cons {s : State} {e : Event} {es : List Event} (h : s.schedule = e :: es) :
    turnTaken s = { s with schedule := es } := by simp [turnTaken, h]

/-! ### Runs -/

@[simp] theorem run_zero (s : State) : run 0 s = .next s := rfl

theorem run_succ_of_next {s t : State} (n : Nat) (h : step s = .next t) : run (n + 1) s = run n t := by
  simp [run, h]

/-- A run of `m + n` steps is a run of `m` steps and then one of `n`. -/
theorem run_add_of_next {s t : State} {m : Nat} (n : Nat) (h : run m s = .next t) : run (m + n) s = run n t := by
  induction m generalizing s with
  | zero => simp only [run_zero, Host.Outcome.next.injEq] at h; rw [Nat.zero_add, h]
  | succ m ih =>
    simp only [run] at h
    split at h
    · next t' ht => rw [Nat.add_right_comm, run_succ_of_next _ ht, ih h]
    · cases h
    · cases h

end Sys2Proof.Safety
end

