-- ==== Sys2Proof/Laws/Block.lean ====
section
/-! SUPPORT. What the block's step does, phase by phase: one lemma per case of the fetch, which later proofs cite instead of
unfolding it. -/

namespace Sys2Proof.Machine

theorem elapsed_def (s : State) : s.elapsed = s.now - s.t0 := rfl

/-- The window as the rules write it. -/
theorem windowOpen_iff (s : State) : s.windowOpen = true ↔ (s.now - s.t0).toNat < 200 := by
  exact decide_eq_true_iff

theorem windowOpen_eq_false_iff (s : State) : s.windowOpen = false ↔ 200 ≤ (s.now - s.t0).toNat := by
  rw [← Bool.not_eq_true, windowOpen_iff, Nat.not_lt]

/-- The deadline as one update. -/
theorem deadline_eq (s : State) : deadline s = { s with
    outcome := if s.phase = .hunt then .noFrame else .partialTimeout, phase := .idle } := by
  unfold deadline
  split <;> rfl

/-- The hunted byte as one update. -/
theorem huntByte_eq (b : Byte) (s : State) : huntByte b s = { s with
    fb := if b = Config.startMark then memWrite s.fb 0 b else s.fb,
    phase := if b = Config.startMark then .len else s.phase } := by
  unfold huntByte
  split <;> rfl

theorem blockStep_idle_nil {s : State} (hp : s.phase = .idle) (hr : s.reqs = []) : blockStep s = .next s := by
  simp [blockStep, fetch, hp, fetchIdle, hr]

theorem blockStep_idle_cons {s : State} {w : Word} {r : List Word} (hp : s.phase = .idle) (hr : s.reqs = w :: r) :
    blockStep s = exec (decodeRequest w) { s with reqs := r } := by
  simp [blockStep, fetch, hp, fetchIdle, hr]

theorem blockStep_drain {s : State} (hp : s.phase = .drain) : blockStep s = .next s.drainRx := by
  simp [blockStep, fetch, hp]

/-- In `SEND` the bytes of `CMD` are sent, whether or not they are the command frame. -/
theorem blockStep_send {s : State} (hp : s.phase = .send) : blockStep s = .next (s.sendFrame s.cmd) := by
  simp only [blockStep, fetch, hp, fetchSend, decodeCommand]
  by_cases h : s.cmd.bytes = commandFrame.bytes
  · simp only [h, if_true, exec, execCmdInventoryExt, State.takenIn, hp, State.sendFrame]
  · simp only [h, if_false]

theorem blockStep_reader_closed {s : State} (hp : Safety.readerPhase s.phase = true) (hw : s.windowOpen = false) :
    blockStep s = .next (deadline s) := by
  revert hp
  cases h : s.phase <;> simp [Safety.readerPhase, blockStep, fetch, h, readerStep, hw]

theorem blockStep_reader_nil {s : State} (hp : Safety.readerPhase s.phase = true) (hw : s.windowOpen = true)
    (hr : s.rxq = []) : blockStep s = .next s := by
  revert hp
  cases h : s.phase <;> simp [Safety.readerPhase, blockStep, fetch, h, readerStep, hw, hr]

theorem blockStep_hunt_cons {s : State} {b : Byte} {r : List Byte} (hp : s.phase = .hunt)
    (hw : s.windowOpen = true) (hr : s.rxq = b :: r) : blockStep s = .next (huntByte b { s with rxq := r }) := by
  simp [blockStep, fetch, hp, readerStep, hw, hr]

theorem blockStep_len_oversize {s : State} {b : Byte} {r : List Byte} (hp : s.phase = .len)
    (hw : s.windowOpen = true) (hr : s.rxq = b :: r) (hb : 64 < b.toNat) :
    blockStep s = exec (.rspOversize b) { s with rxq := r } := by
  simp [blockStep, fetch, hp, readerStep, hw, hr, lenByte, Config.maxLen, hb]

theorem blockStep_len_accept {s : State} {b : Byte} {r : List Byte} (hp : s.phase = .len)
    (hw : s.windowOpen = true) (hr : s.rxq = b :: r) (hb : b.toNat ≤ 64) :
    blockStep s = .next { s with rxq := r, len := b, fb := memWrite s.fb 1 b, idx := 2, phase := .body } := by
  simp [blockStep, fetch, hp, readerStep, hw, hr, lenByte, Config.maxLen, State.writeFb, Nat.not_lt.2 hb]

theorem blockStep_body_cons {s : State} {b : Byte} {r : List Byte} (hp : s.phase = .body)
    (hw : s.windowOpen = true) (hr : s.rxq = b :: r) (hi : s.idx.toNat < 68) :
    blockStep s = .next { s with
      rxq := r, fb := memWrite s.fb s.idx.toNat b, idx := s.idx + 1,
      phase := if s.idx.toNat + 1 = s.len.toNat + 4 then .decode else .body } := by
  have h1 : (s.idx + 1).toNat = s.idx.toNat + 1 := by rw [BitVec.toNat_add]; simp; omega
  have hc : s.idx.toNat < Config.fbufCap := hi
  simp only [blockStep, fetch, hp, readerStep, hw, hr, bodyByte, hc, State.writeFb, h1, if_true]

theorem blockStep_body_stop {s : State} {b : Byte} {r : List Byte} (hp : s.phase = .body)
    (hw : s.windowOpen = true) (hr : s.rxq = b :: r) (hi : 68 ≤ s.idx.toNat) :
    blockStep s = .fault (.frameBufferWrite s.idx.toNat) := by
  simp [blockStep, fetch, hp, readerStep, hw, hr, bodyByte, Config.fbufCap, Config.maxLen, Nat.not_lt.2 hi]

theorem blockStep_decode {s : State} (hp : s.phase = .decode) (hl : s.len.toNat ≤ 64) :
    blockStep s = exec (frameInstr s) s := by
  simp [blockStep, fetch, hp, fetchDecode, Config.fbufCap, Config.maxLen, hl]

theorem blockStep_decode_stop {s : State} (hp : s.phase = .decode) (hl : 64 < s.len.toNat) :
    blockStep s = .fault (.frameBufferRead (s.len.toNat + 4)) := by
  simp [blockStep, fetch, hp, fetchDecode, Config.fbufCap, Config.maxLen, Nat.not_le.2 hl]

/-- What the decode step reports for the frame in `FB`: the outcome and the records. -/
def frameDecoded (s : State) : Decoded :=
  match frameInstr s with
  | .rspTagNotify payload _ _ => decodeTagPayload Config.masks payload
  | _ => { outcome := .ignored, records := [], left := 0 }

/-- The decode step in one form: it reports and finishes. -/
theorem blockStep_decode_report {s : State} (hp : s.phase = .decode) (hl : s.len.toNat ≤ 64) :
    blockStep s = .next (s.report (frameDecoded s)) := by
  rw [blockStep_decode hp hl]
  unfold frameDecoded frameInstr responseOf
  split
  · simp [exec, execRspEmpty, State.takenIn, hp, State.report, State.emit, State.finish]
  · split <;> simp [exec, execRspTagNotify, execRspOther, State.takenIn, hp, State.report, State.emit, State.finish]

/-- Every request word is taken in `IDLE`. -/
theorem takenPhase_decodeRequest (w : Word) : Safety.takenPhase (decodeRequest w) = .idle := by
  unfold decodeRequest
  dsimp only
  repeat' split
  all_goals rfl

/-- What taking a request can do, request by request. -/
theorem exec_request_cases {w : Word} {s t : State} (hp : s.phase = .idle)
    (h : exec (decodeRequest w) s = .next t) :
    (decodeRequest w = .crcInit ∧ t = { s with crcAcc := Config.crcInitVal, illegal := false }) ∨
    (∃ b, decodeRequest w = .crcUpdate b ∧ t = { s with crcAcc := crcStep s.crcAcc b, illegal := false }) ∨
    (decodeRequest w = .crcFinal ∧ t = { s with result := s.crcAcc ^^^ Config.crcXorOut, illegal := false }) ∨
    (decodeRequest w = .encode ∧ t = { s with cmd := commandFrame, illegal := false }) ∨
    (decodeRequest w = .scan ∧ t = { s with
      cmd := commandFrame, illegal := false, outcome := .none, oversizeCnt := 0, phase := .drain }) ∨
    (∃ d rsv op, decodeRequest w = .illegal d rsv op ∧ t = { s with illegal := true }) := by
  have hk := takenPhase_decodeRequest w
  revert h hk
  cases decodeRequest w <;> intro h hk <;> first
    | (simp only [Safety.takenPhase, reduceCtorEq] at hk; done)
    | (cases h
       rw [State.takenIn_of_phase _ hp]
       simp [State.clearIllegal, State.setCmd])

/-- What the block's step can do: one case per rule. -/
theorem blockStep_cases {s t : State} (h : blockStep s = .next t) :
    (s.phase = .idle ∧ s.reqs = [] ∧ t = s) ∨
    (s.phase = .idle ∧ ∃ w r, s.reqs = w :: r ∧ exec (decodeRequest w) { s with reqs := r } = .next t) ∨
    (s.phase = .drain ∧ t = s.drainRx) ∨
    (s.phase = .send ∧ t = s.sendFrame s.cmd) ∨
    (Safety.readerPhase s.phase = true ∧ s.windowOpen = false ∧
      t = { s with outcome := if s.phase = .hunt then .noFrame else .partialTimeout, phase := .idle }) ∨
    (Safety.readerPhase s.phase = true ∧ s.windowOpen = true ∧ s.rxq = [] ∧ t = s) ∨
    (s.phase = .hunt ∧ s.windowOpen = true ∧ ∃ b r, s.rxq = b :: r ∧
      t = { s with
        rxq := r, fb := if b = Config.startMark then memWrite s.fb 0 b else s.fb,
        phase := if b = Config.startMark then .len else .hunt }) ∨
    (s.phase = .len ∧ s.windowOpen = true ∧ ∃ b r, s.rxq = b :: r ∧ 64 < b.toNat ∧
      t = { s with rxq := r, len := b, oversizeCnt := satInc s.oversizeCnt, phase := .hunt }) ∨
    (s.phase = .len ∧ s.windowOpen = true ∧ ∃ b r, s.rxq = b :: r ∧ b.toNat ≤ 64 ∧
      t = { s with rxq := r, len := b, fb := memWrite s.fb 1 b, idx := 2, phase := .body }) ∨
    (s.phase = .body ∧ s.windowOpen = true ∧ ∃ b r, s.rxq = b :: r ∧ s.idx.toNat < 68 ∧
      t = { s with
        rxq := r, fb := memWrite s.fb s.idx.toNat b, idx := s.idx + 1,
        phase := if s.idx.toNat + 1 = s.len.toNat + 4 then .decode else .body }) ∨
    (s.phase = .decode ∧ s.len.toNat ≤ 64 ∧ t = s.report (frameDecoded s)) := by
  have next_inj {a b : State} (e : (.next a : Host.Outcome State Fault Refusal) = .next b) : b = a := by
    cases e; rfl
  cases hp : s.phase with
  | idle =>
    cases hr : s.reqs with
    | nil => rw [blockStep_idle_nil hp hr] at h; exact .inl ⟨rfl, rfl, next_inj h⟩
    | cons w r => rw [blockStep_idle_cons hp hr] at h; rw [hp] at h; exact .inr (.inl ⟨rfl, w, r, rfl, h⟩)
  | drain => rw [blockStep_drain hp] at h; simp [next_inj h]
  | send => rw [blockStep_send hp] at h; simp [next_inj h]
  | decode =>
    by_cases hl : s.len.toNat ≤ 64
    · rw [blockStep_decode_report hp hl] at h; simp [next_inj h, hl]
    · rw [blockStep_decode_stop hp (Nat.lt_of_not_le hl)] at h; cases h
  | hunt =>
    have hr : Safety.readerPhase s.phase = true := by rw [hp]; rfl
    cases hw : s.windowOpen with
    | false => rw [blockStep_reader_closed hr hw, deadline_eq] at h; simp [next_inj h, Safety.readerPhase, hp]
    | true =>
      cases hq : s.rxq with
      | nil => rw [blockStep_reader_nil hr hw hq] at h; simp [next_inj h, Safety.readerPhase]
      | cons b r => rw [blockStep_hunt_cons hp hw hq, huntByte_eq] at h; simp [next_inj h, hp]
  | len =>
    have hr : Safety.readerPhase s.phase = true := by rw [hp]; rfl
    cases hw : s.windowOpen with
    | false => rw [blockStep_reader_closed hr hw, deadline_eq] at h; simp [next_inj h, Safety.readerPhase, hp]
    | true =>
      cases hq : s.rxq with
      | nil => rw [blockStep_reader_nil hr hw hq] at h; simp [next_inj h, Safety.readerPhase]
      | cons b r =>
        by_cases hb : 64 < b.toNat
        · rw [blockStep_len_oversize hp hw hq hb] at h
          have h' := next_inj h
          rw [State.takenIn_of_phase _ (by exact hp)] at h'
          simp [h', hb]
        · rw [blockStep_len_accept hp hw hq (Nat.le_of_not_lt hb)] at h; simp [next_inj h, Nat.le_of_not_lt hb]
  | body =>
    have hr : Safety.readerPhase s.phase = true := by rw [hp]; rfl
    cases hw : s.windowOpen with
    | false => rw [blockStep_reader_closed hr hw, deadline_eq] at h; simp [next_inj h, Safety.readerPhase, hp]
    | true =>
      cases hq : s.rxq with
      | nil => rw [blockStep_reader_nil hr hw hq] at h; simp [next_inj h, Safety.readerPhase]
      | cons b r =>
        by_cases hi : s.idx.toNat < 68
        · rw [blockStep_body_cons hp hw hq hi] at h; simp [next_inj h, hi]
        · rw [blockStep_body_stop hp hw hq (Nat.le_of_not_lt hi)] at h; cases h

end Sys2Proof.Machine
end

