-- ==== Sys2Proof/Laws/Decode.lean ====
section
/-! SUPPORT. The fields of a request word, in numbers, and what the decoder of received frames answers: one lemma for a frame
of the announced length, one for a length that is too large. -/

namespace Sys2Proof

/-- A request word as the number its fields write. -/
theorem toNat_requestWord (d : Byte) (rsv op : BitVec 4) :
    (requestWord d rsv op).toNat = 256 * d.toNat + 16 * rsv.toNat + op.toNat := by
  have hd := d.isLt
  have hr := rsv.isLt
  have ho := op.isLt
  simp only [requestWord, BitVec.toNat_append]
  rw [← Nat.shiftLeft_add_eq_or_of_lt (by omega), ← Nat.shiftLeft_add_eq_or_of_lt (by omega)]
  simp only [Nat.shiftLeft_eq]
  omega

theorem toNat_dataField (w : Word) : (dataField w).toNat = w.toNat / 256 := by
  have hw := w.isLt
  simp only [dataField, BitVec.extractLsb'_toNat, Nat.shiftRight_eq_div_pow]
  omega

theorem toNat_rsvField (w : Word) : (rsvField w).toNat = w.toNat / 16 % 16 := by
  simp only [rsvField, BitVec.extractLsb'_toNat, Nat.shiftRight_eq_div_pow]

theorem toNat_opField (w : Word) : (opField w).toNat = w.toNat % 16 := by
  simp only [opField, BitVec.extractLsb'_toNat, Nat.shiftRight_eq_div_pow]
  omega

/-- A word is the word of its three fields. -/
theorem requestWord_fields (w : Word) : requestWord (dataField w) (rsvField w) (opField w) = w := by
  apply BitVec.eq_of_toNat_eq
  rw [toNat_requestWord, toNat_dataField, toNat_rsvField, toNat_opField]
  omega

@[simp] theorem dataField_requestWord (d : Byte) (rsv op : BitVec 4) : dataField (requestWord d rsv op) = d := by
  apply BitVec.eq_of_toNat_eq
  rw [toNat_dataField, toNat_requestWord]
  omega

@[simp] theorem rsvField_requestWord (d : Byte) (rsv op : BitVec 4) : rsvField (requestWord d rsv op) = rsv := by
  apply BitVec.eq_of_toNat_eq
  rw [toNat_rsvField, toNat_requestWord]
  omega

@[simp] theorem opField_requestWord (d : Byte) (rsv op : BitVec 4) : opField (requestWord d rsv op) = op := by
  apply BitVec.eq_of_toNat_eq
  rw [toNat_opField, toNat_requestWord]
  omega

/-- A list of two elements more than `l`, past its first `l`. -/
theorem drop_eq_pair {l : Nat} {body : List Byte} (h : body.length = l + 2) :
    body.drop l = [body.getD l 0, body.getD (l + 1) 0] := by
  induction l generalizing body with
  | zero =>
    match body, h with
    | [a, b], _ => rfl
  | succ l ih =>
    match body, h with
    | a :: r, h => simpa using ih (by simpa using h)

/-- Three parts of a body of `l + 2` bytes: the payload and the two trailer bytes. -/
theorem body_eq_payload_trailer {l : Nat} {body : List Byte} (h : body.length = l + 2) :
    body = body.take l ++ [body.getD l 0, body.getD (l + 1) 0] := by
  rw [← drop_eq_pair h, List.take_append_drop]

/-- A frame of the announced length decodes to the response of its payload. -/
theorem decodeResponse_of_length {l : Byte} {body : List Byte} (hl : l.toNat ≤ 64)
    (h : body.length = l.toNat + 2) :
    decodeResponse (Config.startMark :: l :: body) =
      .ok (responseOf (body.take l.toNat) (body.getD l.toNat 0) (body.getD (l.toNat + 1) 0)) := by
  have hm : ¬ Config.maxLen < l.toNat := by simpa [Config.maxLen] using hl
  simp only [decodeResponse, decodeResponsePrefix, ne_eq, not_true_eq_false, if_false, hm, drop_eq_pair h]

/-- A start marker and a length that is too large decode to the rejected length, if nothing follows. -/
theorem decodeResponse_oversize {l : Byte} (hl : 64 < l.toNat) :
    decodeResponse [Config.startMark, l] = .ok (.rspOversize l) := by
  have hm : Config.maxLen < l.toNat := hl
  simp only [decodeResponse, decodeResponsePrefix, ne_eq, not_true_eq_false, if_false, hm, if_true]

/-- The frame around a payload of at most 64 bytes decodes to the response of that payload. -/
theorem decodeResponse_responseBytes {payload : List Byte} (hi lo : Byte) (h : payload.length ≤ 64) :
    decodeResponse (responseBytes payload hi lo) = .ok (responseOf payload hi lo) := by
  have hl : (BitVec.ofNat 8 payload.length).toNat = payload.length := by simp; omega
  rw [responseBytes, decodeResponse_of_length (by omega) (by simp; omega), hl]
  simp [List.getD_eq_getElem?_getD]

/-- What any byte string that decodes to a response looks like. -/
theorem decodeResponse_inv {bytes : List Byte} {i : Instr} (h : decodeResponse bytes = .ok i) :
    (∃ l : Byte, 64 < l.toNat ∧ bytes = [Config.startMark, l] ∧ i = .rspOversize l) ∨
    (∃ (l : Byte) (body : List Byte), l.toNat ≤ 64 ∧ body.length = l.toNat + 2 ∧
      bytes = Config.startMark :: l :: body ∧
      i = responseOf (body.take l.toNat) (body.getD l.toNat 0) (body.getD (l.toNat + 1) 0)) := by
  match bytes with
  | [] => simp [decodeResponse, decodeResponsePrefix] at h
  | [m] =>
    by_cases hm : m = Config.startMark <;>
      simp only [decodeResponse, decodeResponsePrefix, hm, if_true, if_false] at h <;> cases h
  | m :: l :: body =>
    by_cases hm : m = Config.startMark
    swap
    · simp only [decodeResponse, decodeResponsePrefix, ne_eq, hm, not_false_eq_true, if_true] at h
      cases h
    subst hm
    by_cases hl : 64 < l.toNat
    · have hl' : Config.maxLen < l.toNat := hl
      simp only [decodeResponse, decodeResponsePrefix, ne_eq, not_true_eq_false, if_false, hl', if_true] at h
      match body, h with
      | [], h => exact .inl ⟨l, hl, rfl, by simpa using h.symm⟩
    · have hl' : ¬ Config.maxLen < l.toNat := hl
      simp only [decodeResponse, decodeResponsePrefix, ne_eq, not_true_eq_false, if_false, hl'] at h
      match hd : body.drop l.toNat, h with
      | [hi, lo], h =>
        have hlen : body.length = l.toNat + 2 := by
          have := congrArg List.length hd
          simp at this
          omega
        refine .inr ⟨l, body, Nat.le_of_not_lt hl, hlen, rfl, ?_⟩
        rw [drop_eq_pair hlen] at hd
        simp only [List.cons.injEq, and_true] at hd
        rw [hd.1, hd.2]
        simpa using h.symm

end Sys2Proof
end

