-- ==== Sys2Proof/Laws/Operands.lean ====
section
/-! SUPPORT. What the decoder's cursor operations answer: the bytes taken, the cursor left, the records kept; and that bytes
beyond what is taken do not matter. -/

namespace Sys2Proof.Machine

/-- Taking `k` bytes, as one condition on how many are left. -/
theorem takeBytes_eq (c : Cursor) (k : Nat) :
    takeBytes c k =
      if k ≤ c.rest.length then some (c.rest.take k, { rest := c.rest.drop k, emitted := c.emitted }) else none := by
  simp [takeBytes, need]

/-- A length byte and as many bytes as it says, taken from a cursor that begins with them. -/
theorem takePrefixed_cons {n : Byte} {bytes r : List Byte} {rs : List Record} (h : bytes.length = n.toNat) :
    takePrefixed { rest := n :: (bytes ++ r), emitted := rs } = some (bytes, { rest := r, emitted := rs }) := by
  simp [takePrefixed, takeBytes_eq, ← h]

theorem takeBytes_emitted {c c' : Cursor} {k : Nat} {bytes : List Byte} (h : takeBytes c k = some (bytes, c')) :
    c'.emitted = c.emitted := by
  rw [takeBytes_eq] at h
  split at h <;> cases h
  rfl

theorem takePrefixed_emitted {c c' : Cursor} {bytes : List Byte} (h : takePrefixed c = some (bytes, c')) :
    c'.emitted = c.emitted := by
  unfold takePrefixed at h
  split at h
  · cases h
  · exact (takeBytes_emitted h).trans rfl

/-- Bytes after those taken stay after those left. -/
theorem takeBytes_append {c c' : Cursor} {k : Nat} {bytes : List Byte} (x : List Byte)
    (h : takeBytes c k = some (bytes, c')) :
    takeBytes { c with rest := c.rest ++ x } k = some (bytes, { c' with rest := c'.rest ++ x }) := by
  rw [takeBytes_eq] at *
  split at h <;> cases h
  next hk =>
  rw [if_pos (by simp; omega)]
  simp [List.take_append_of_le_length hk, List.drop_append_of_le_length hk]

theorem takePrefixed_append {c c' : Cursor} {bytes : List Byte} (x : List Byte)
    (h : takePrefixed c = some (bytes, c')) :
    takePrefixed { c with rest := c.rest ++ x } = some (bytes, { c' with rest := c'.rest ++ x }) := by
  unfold takePrefixed at *
  match hr : c.rest, h with
  | n :: r, h => simpa using takeBytes_append x h

/-- The device identifier: four bytes skipped, or the walk stops where it stood. -/
theorem fieldDevId_eq (m : Masks) (flags : Byte) (c : Cursor) :
    fieldDevId m flags c =
      if selected flags m.devId then
        if 4 ≤ c.rest.length then .ok { c with rest := c.rest.drop 4 } else .error c
      else .ok c := by
  unfold fieldDevId
  split
  · rw [takeBytes_eq]
    by_cases h : 4 ≤ c.rest.length <;> simp [Config.devIdLen, h]
  · rfl

/-- The RSSI field: its two bytes, high first, or the walk stops where it stood. -/
theorem fieldRssi_eq (m : Masks) (flags : Byte) (c : Cursor) :
    fieldRssi m flags c =
      if selected flags m.rssi then
        match c.rest with
        | hi :: lo :: r => .ok { rest := r, emitted := c.emitted ++ [.rssi (rssiRaw hi lo)] }
        | _ => .error c
      else .ok c := by
  unfold fieldRssi
  split
  · rw [takeBytes_eq]
    match c.rest with
    | [] => rfl
    | [_] => rfl
    | _ :: _ :: _ => simp [Config.rssiLen]
  · rfl

/-- A field whose bound fails leaves the cursor as it was: nothing of it is consumed or emitted. -/
theorem fieldDevId_error {m : Masks} {flags : Byte} {c c' : Cursor} (h : fieldDevId m flags c = .error c') :
    c' = c := by
  unfold fieldDevId at h
  repeat' split at h
  all_goals cases h
  rfl

theorem fieldEpc_error {m : Masks} {flags : Byte} {c c' : Cursor} (h : fieldEpc m flags c = .error c') : c' = c := by
  unfold fieldEpc at h
  repeat' split at h
  all_goals cases h
  rfl

theorem fieldTid_error {m : Masks} {flags : Byte} {c c' : Cursor} (h : fieldTid m flags c = .error c') : c' = c := by
  unfold fieldTid at h
  repeat' split at h
  all_goals cases h
  rfl

theorem fieldMem_error {m : Masks} {flags : Byte} {c c' : Cursor} (h : fieldMem m flags c = .error c') : c' = c := by
  unfold fieldMem at h
  repeat' split at h
  all_goals cases h
  rfl

theorem fieldRssi_error {m : Masks} {flags : Byte} {c c' : Cursor} (h : fieldRssi m flags c = .error c') : c' = c := by
  unfold fieldRssi at h
  repeat' split at h
  all_goals cases h
  rfl

/-- What the host and the text see of a saturating count. -/
theorem satInc_eq (n : Byte) : satInc n = BitVec.ofNat 8 (min (n.toNat + 1) 255) := by
  revert n
  decide +kernel

/-- The index of the next body byte, while it is below the buffer's capacity. -/
theorem toNat_idx_succ {i : Byte} (h : i.toNat < 68) : (i + 1).toNat = i.toNat + 1 := by
  rw [BitVec.toNat_add]
  simp
  omega

/-- The command frame, byte by byte. -/
theorem commandFrame_eq : commandFrame = ⟨0xBB, 0x02, 0x21, 0x0C, 0x16, 0xAB⟩ := by decide +kernel

end Sys2Proof.Machine
end

