-- ==== Sys2Proof/Laws/PerInstr.lean ====
section
/-! SUPPORT. A statement about every instruction as syntax, with one lemma per constructor: the domain and the length of its
encoding go with the phase in which it is taken. -/

namespace Sys2Proof.Laws

open Sys2Proof.Machine Sys2Proof.Safety

/-- A request word is taken in `IDLE`; a sent frame has six bytes and is taken in `SEND`; a received message begins with the
start marker and is either the two bytes of a rejected length, taken in `LEN`, or a frame of 4 to 68 bytes, taken in `DECODE`
(30_encoding.md rules R70, R76, R77, R84; 44_scan_cycle.md rules R202 to R205). -/
def EncodingShape.Statement (i : Instr) : Prop :=
  WellFormed i →
    match encode i with
    | .request _ => takenPhase i = .idle
    | .command bytes => takenPhase i = .send ∧ bytes.length = 6
    | .response bytes => bytes.head? = some Config.startMark ∧
        ((takenPhase i = .len ∧ bytes.length = 2) ∨
          (takenPhase i = .decode ∧ 4 ≤ bytes.length ∧ bytes.length ≤ Config.fbufCap))

theorem EncodingShape.crcInit : EncodingShape.Statement .crcInit := fun _ => rfl

theorem EncodingShape.crcUpdate (b : Byte) : EncodingShape.Statement (.crcUpdate b) := fun _ => rfl

theorem EncodingShape.crcFinal : EncodingShape.Statement .crcFinal := fun _ => rfl

theorem EncodingShape.encode : EncodingShape.Statement .encode := fun _ => rfl

theorem EncodingShape.scan : EncodingShape.Statement .scan := fun _ => rfl

theorem EncodingShape.illegal (data : Byte) (rsv op : BitVec 4) :
    EncodingShape.Statement (.illegal data rsv op) := fun _ => rfl

theorem EncodingShape.cmdInventoryExt : EncodingShape.Statement .cmdInventoryExt := fun _ => ⟨rfl, rfl⟩

theorem EncodingShape.rspTagNotify (payload : List Byte) (crcHi crcLo : Byte) :
    EncodingShape.Statement (.rspTagNotify payload crcHi crcLo) := by
  intro h
  have hp : payload.length + 1 ≤ 64 := by simpa [WellFormed, Instr.wellFormed, Config.maxLen] using h
  exact ⟨rfl, .inr ⟨rfl, by simp [responseBytes], by simp [responseBytes, Config.fbufCap, Config.maxLen]; omega⟩⟩

theorem EncodingShape.rspEmpty (crcHi crcLo : Byte) : EncodingShape.Statement (.rspEmpty crcHi crcLo) :=
  fun _ => ⟨rfl, .inr ⟨rfl, by simp [responseBytes], by simp [responseBytes, Config.fbufCap, Config.maxLen]⟩⟩

theorem EncodingShape.rspOther (code : Byte) (rest : List Byte) (crcHi crcLo : Byte) :
    EncodingShape.Statement (.rspOther code rest crcHi crcLo) := by
  intro h
  have hp : rest.length + 1 ≤ 64 := by
    simp [WellFormed, Instr.wellFormed, Config.maxLen] at h
    omega
  exact ⟨rfl, .inr ⟨rfl, by simp [responseBytes], by simp [responseBytes, Config.fbufCap, Config.maxLen]; omega⟩⟩

theorem EncodingShape.rspOversize (len : Byte) : EncodingShape.Statement (.rspOversize len) :=
  fun _ => ⟨rfl, .inl ⟨rfl, rfl⟩⟩

end Sys2Proof.Laws
end

