-- ==== Sys2Proof/Tests/Slice0.lean ====
section
/-! SUPPORT. Tests of the model: ill-formed terms refused, words written out from the spec's encodings decoded, single steps
with the results 95_test_vectors.md gives, and for every statement with hypotheses a state and operands that meet them
(`test_meets_<statement>`). -/

namespace Sys2Proof.Tests

open Sys2Proof.Machine Sys2Proof.Safety

/-- The next state of an outcome, if it is one. -/
def next? : Host.Outcome State Fault Refusal → Option State
  | .next s => some s
  | .fault _ => none
  | .refused _ => none

/-- One look at the state after an instruction. -/
def after {α : Type} (i : Instr) (s : State) (look : State → α) : Option α := (next? (exec i s)).map look

/-- One look at the state after a step. -/
def stepped {α : Type} (s : State) (look : State → α) : Option α := (next? (step s)).map look

/-- A state after reset but for its phase. -/
def inPhase (p : Phase) : State := { State.reset with phase := p }

/-- The vector S4's frame, its trailer in the last two bytes. -/
def s4Frame : List Byte :=
  [0xBB, 0x0B, 0xE0, 0x07, 0x02, 0xAB, 0xCD, 0x03, 0x11, 0x22, 0x33, 0xFF, 0x9C, 0x3D, 0xC3]

/-- The fields of S4's frame. -/
def s4Fields : ResponseFields :=
  { devId := none, epc := some [0xAB, 0xCD], tid := some [0x11, 0x22, 0x33], mem := none, rssi := some (0xFF, 0x9C) }

/-- A complete frame in the buffer, at the decode. -/
def decoding (frame : List Byte) (l : Byte) : State :=
  { inPhase .decode with fb := memWriteAll [] 0 frame, len := l, idx := l + 4 }

/-! ## Parameters and well-formedness -/

theorem test_params_meet_constraint : Config.ParamsOk := by decide

theorem test_masks_are_admissible : Config.masks.admissible = true := by decide

theorem test_shared_mask_is_not_admissible : ({ Config.masks with mem := 0x08 } : Masks).admissible = false := by decide

theorem test_wf_refuses_legal_word_as_illegal : ¬ WellFormed (.illegal 0x00 0x0 0x5) := by decide

theorem test_wf_takes_data_of_other_requests_as_illegal : WellFormed (.illegal 0x01 0x0 0x4) := by decide

theorem test_wf_refuses_long_tag_payload : ¬ WellFormed (.rspTagNotify (List.replicate 64 0) 0 0) := by decide

theorem test_wf_takes_longest_tag_payload : WellFormed (.rspTagNotify (List.replicate 63 0) 0 0) := by decide

theorem test_wf_refuses_tag_code_as_other : ¬ WellFormed (.rspOther 0xE0 [] 0 0) := by decide

theorem test_wf_refuses_long_other_payload : ¬ WellFormed (.rspOther 0x21 (List.replicate 64 0) 0 0) := by decide

theorem test_wf_refuses_accepted_length_as_oversize : ¬ WellFormed (.rspOversize 64) := by decide

/-! ## Decoding, from the encodings of 30_encoding.md -/

/-- `DATA = 00000000, RSV = 0000, OP = 0001`. -/
theorem test_decode_crc_init : decode (.request 0b00000000_0000_0001) = .ok .crcInit := by decide

theorem test_decode_crc_update : decode (.request 0b00100001_0000_0010) = .ok (.crcUpdate 0x21) := by decide

theorem test_decode_crc_final : decode (.request 0b00000000_0000_0011) = .ok .crcFinal := by decide

theorem test_decode_encode : decode (.request 0b00000000_0000_0100) = .ok .encode := by decide

theorem test_decode_scan : decode (.request 0b00000000_0000_0101) = .ok .scan := by decide

/-- Vectors Q2 and Q3: `ENCODE` with data, `SCAN` with a reserved bit. -/
theorem test_decode_illegal : decode (.request 0b00000001_0000_0100) = .ok (.illegal 0x01 0x0 0x4) ∧
    decode (.request 0b00000000_0001_0101) = .ok (.illegal 0x00 0x1 0x5) := by decide

theorem test_decode_command : decode (.command [0xBB, 0x02, 0x21, 0x0C, 0x16, 0xAB]) = .ok .cmdInventoryExt := by
  decide +kernel

theorem test_decode_rejects_other_command :
    decode (.command [0xBB, 0x02, 0x21, 0x0C, 0xAB, 0x16]) = .error .notTheCommandFrame := by decide +kernel

theorem test_decode_tag_notify : decode (.response [0xBB, 0x03, 0xE0, 0x01, 0x00, 0xA0, 0x63]) =
    .ok (.rspTagNotify [0x01, 0x00] 0xA0 0x63) := by decide

theorem test_decode_empty : decode (.response [0xBB, 0x00, 0x12, 0x34]) = .ok (.rspEmpty 0x12 0x34) := by decide

theorem test_decode_other : decode (.response [0xBB, 0x02, 0x21, 0x00, 0xD7, 0x27]) =
    .ok (.rspOther 0x21 [0x00] 0xD7 0x27) := by decide

theorem test_decode_oversize : decode (.response [0xBB, 0x41]) = .ok (.rspOversize 65) := by decide

/-- A frame one byte short, as S1's stream is; one byte too many; no start marker. -/
theorem test_decode_rejects_by_name :
    decode (.response [0xBB, 0x05, 0xE0, 0x00, 0xAA, 0xBB, 0xCC, 0xDD]) = .error .truncated ∧
    decode (.response [0xBB, 0x00, 0x12, 0x34, 0x7E]) = .error (.trailingBytes 1) ∧
    decode (.response [0x7E, 0x00, 0x12, 0x34]) = .error .notStartMarker := by decide

/-- The table's numbering: byte 0 in bits 7..0. -/
theorem test_table_words : decodeTableWord 16 0x2102 = some (.crcUpdate 0x21) ∧
    decodeTableWord 48 0xAB160C2102BB = some .cmdInventoryExt ∧
    decodeTableWord 48 0xBB02210C16AB = some .cmdInventoryExt ∧
    decodeTableWord 32 0x341200BB = some (.rspEmpty 0x12 0x34) ∧
    decodeTableWord 16 0x41BB = some (.illegal 0x41 0xB 0xB) ∧
    decodeTableWord 24 0xE001BB = some (.rspTagNotify [] 0 0) ∧
    decodeTableWord 24 0x0041BB = some (.rspOversize 65) := by decide +kernel

/-- What the table's bits place is what the next step runs. -/
theorem test_placed_words_run :
    stepped (State.reset.withFetchWord 16 0x2102) State.crcAcc = some 0xD5B3 ∧
    stepped (State.reset.withFetchWord 48 0xAB160C2102BB) State.txs = some [0xBB, 0x02, 0x21, 0x0C, 0x16, 0xAB] ∧
    stepped (State.reset.withFetchWord 48 0x42F200E002BB) State.sink = some [.sep] ∧
    stepped (State.reset.withFetchWord 24 0x0041BB) State.oversizeCnt = some 1 := by decide +kernel

/-! ## Single instructions, from 95_test_vectors.md -/

/-- Q8. -/
theorem test_crc_init : after .crcInit { State.reset with crcAcc := 0xFF00, illegal := true }
    (fun t => (t.crcAcc, t.status)) = some (0xFFFF, 0x0001) := by decide +kernel

/-- X4, and the linearity instance. -/
theorem test_crc_update : after (.crcUpdate 0x21) State.reset State.crcAcc = some 0xD5B3 ∧
    after (.crcUpdate 0x0C) { State.reset with crcAcc := 0x1234 } State.crcAcc = some 0xC7FF := by decide +kernel

/-- X5: the result is complemented, the accumulator kept. -/
theorem test_crc_final : after .crcFinal { State.reset with crcAcc := 0xE954 } (fun t => (t.result, t.crcAcc)) =
    some (0x16AB, 0xE954) := by decide +kernel

/-- E3. -/
theorem test_encode : after .encode { State.reset with crcAcc := 0xE1F0 }
    (fun t => (t.cmd.bytes, t.crcAcc, t.txs)) = some ([0xBB, 0x02, 0x21, 0x0C, 0x16, 0xAB], 0xE1F0, []) := by
  decide +kernel

/-- Rule R201 on the status S3 leaves: only `READY` was set, and it is cleared. -/
theorem test_scan : after .scan { State.reset with oversizeCnt := 1, outcome := .decoded, rxq := [0x7E] }
    (fun t => (t.status, t.phase, t.rxq)) = some (0x0000, .drain, [0x7E]) := by decide +kernel

/-- S3 then `0x0006`. -/
theorem test_illegal : after (.illegal 0x00 0x0 0x6) { State.reset with oversizeCnt := 1, outcome := .decoded }
    State.status = some 0x0113 := by decide +kernel

/-- Rule R124: the time sampled is the time of the send. -/
theorem test_command_sent : after .cmdInventoryExt { inPhase .send with now := 5000 }
    (fun t => (t.txs, t.t0, t.phase)) = some ([0xBB, 0x02, 0x21, 0x0C, 0x16, 0xAB], 5000, .hunt) := by decide +kernel

/-- S4. -/
theorem test_tag_notify : after (.rspTagNotify
      [0x07, 0x02, 0xAB, 0xCD, 0x03, 0x11, 0x22, 0x33, 0xFF, 0x9C] 0x3D 0xC3) (inPhase .decode)
    (fun t => (t.sink, t.status)) =
    some ([.sep, .epc [0xAB, 0xCD], .tid [0x11, 0x22, 0x33], .rssi (-100)], 0x0011) := by decide +kernel

/-- DV7: two records, then the abort. -/
theorem test_tag_notify_aborts : after (.rspTagNotify [0x07, 0x01, 0xAA, 0x01, 0xBB, 0xFF] 0x1D 0x28) (inPhase .decode)
    (fun t => (t.sink, t.status)) = some ([.sep, .epc [0xAA], .tid [0xBB]], 0x0051) := by decide +kernel

/-- RV2. -/
theorem test_empty : after (.rspEmpty 0x12 0x34) (inPhase .decode) (fun t => (t.sink, t.status)) =
    some ([], 0x0041) := by decide +kernel

/-- RV4. -/
theorem test_other : after (.rspOther 0x21 [0x00] 0xD7 0x27) (inPhase .decode) (fun t => (t.sink, t.status)) =
    some ([], 0x0041) := by decide +kernel

/-- RV1's rejection, and RV12's saturation. -/
theorem test_oversize : after (.rspOversize 0xBB) (inPhase .len) (fun t => (t.oversizeCnt, t.phase)) =
      some (1, .hunt) ∧
    after (.rspOversize 0xBB) { inPhase .len with oversizeCnt := 255 } State.oversizeCnt = some 255 := by
  decide +kernel

/-- S2 and S1: the codes of NO_FRAME and PARTIAL_TIMEOUT in `STATUS`, at the deadline. -/
theorem test_deadline_status : stepped { inPhase .hunt with now := 200 } State.status = some 0x0021 ∧
    stepped { inPhase .body with now := 200, len := 5, idx := 8 } State.status = some 0x0031 := by decide +kernel

/-- DV4: all five fields, by the walk alone; nothing is left over. -/
theorem test_walk_all_fields : decodeTagPayload Config.masks
    [0x1F, 0xD0, 0xD1, 0xD2, 0xD3, 0x02, 0x30, 0x00, 0x01, 0xE2, 0x03, 0x99, 0x98, 0x97, 0xF9, 0x9A] =
    { outcome := .decoded, records := [.sep, .epc [0x30, 0x00], .tid [0xE2], .rssi (-1638)], left := 0 } := by
  decide +kernel

/-- T8: the window across the wrap of the time input. -/
theorem test_elapsed_across_wrap : ({ State.reset with t0 := 0xFFFFFFCE, now := 0x0000000A } : State).elapsed = 60 := by
  decide

/-- X6. -/
theorem test_checksum_check_string :
    checksum [0x31, 0x32, 0x33, 0x34, 0x35, 0x36, 0x37, 0x38, 0x39] = 0xD64E := by decide +kernel

/-! ## Text -/

/-- Table H. -/
theorem test_rssi_text : dec2 0x8000 = ['-', '3', '2', '7', '.', '6', '8'] ∧ dec2 0x0000 = ['0', '.', '0', '0'] ∧
    dec2 0xFFFF = ['-', '0', '.', '0', '1'] ∧ dec2 0xE66A = ['-', '6', '5', '.', '5', '0'] := by decide +kernel

theorem test_hex_text : hexText [0x01, 0x0A] = ['0', '1', '0', 'A'] ∧ hexText [] = [] ∧
    hexText [0xAB, 0xCD] = ['A', 'B', 'C', 'D'] := by decide

/-- P1's lines, with a comment, and P5's directive; a lower-case mnemonic is not read. -/
theorem test_assembly_text :
    parseLine (kwCrcUpdate ++ [' ', '0', 'x', '2', '1', ' ', ';', ' ', 'x']) = some [.crcUpdate 0x21] ∧
    parseLine (kwWord ++ [' ', '0', 'x', '0', '1', '0', '4']) = some [.word 0x0104] ∧
    parseLine ['s', 'c', 'a', 'n'] = none := by decide

/-- P1's words, by the pseudo-instruction. -/
theorem test_crc16_words : assemble [.crc16 [0x21, 0x0C]] = [0x0001, 0x2102, 0x0C02, 0x0003] := by decide

/-! ## What the statements assume can be met -/

/-- A host with two words, an idle block. -/
def onPort (w : Word) : State := { State.reset with reqs := [w, 0x2102] }

theorem test_meets_StepRunsRequestOnPort :
    (blockTurn (onPort 5) = true ∧ (onPort 5).phase = .idle ∧ (onPort 5).reqs = 5 :: [0x2102]) ∧
    (let s : State := { State.reset with illegal := true, rxq := [0xBB] }
     blockTurn s = true ∧ s.phase = .idle ∧ s.reqs = []) := by decide

/-- The longest frame, and the shortest, at the decode; the command frame at the send; the least rejected length. -/
theorem test_meets_StepRunsWireMessages :
    (blockTurn { inPhase .send with cmd := commandFrame } = true ∧
      decode (.command commandFrame.bytes) = .ok .cmdInventoryExt) ∧
    (let s : State := decoding (0xBB :: 64 :: List.replicate 66 0x21) 64
     blockTurn s = true ∧ s.phase = .decode ∧ memRead s.fb 1 = s.len ∧
      decode (.response (memSlice s.fb 0 (s.len.toNat + 4))) =
        .ok (.rspOther 0x21 (List.replicate 63 0x21) 0x21 0x21)) ∧
    (let s : State := decoding [0xBB, 0x00, 0x12, 0x34] 0
     memRead s.fb 1 = s.len ∧
      decode (.response (memSlice s.fb 0 (s.len.toNat + 4))) = .ok (.rspEmpty 0x12 0x34)) ∧
    (let s : State := { inPhase .len with rxq := [65, 1] }
     blockTurn s = true ∧ s.windowOpen = true ∧ s.rxq = 65 :: [1] ∧
      decode (.response [0xBB, 65]) = .ok (.rspOversize 65)) := by decide +kernel

theorem test_meets_InstrTurnedAwayOutsideItsPhase :
    (inPhase .hunt).phase ≠ takenPhase .scan ∧ (inPhase .idle).phase ≠ takenPhase (.rspEmpty 0 0) := by decide

theorem test_meets_CrcInitLoadsInitialValue : ({ State.reset with crcAcc := 0x1234 } : State).phase = .idle := by decide

theorem test_meets_CrcUpdateStepsAccumulator : State.reset.phase = .idle := by decide

theorem test_meets_CrcFinalComplementsAccumulator : ({ State.reset with result := 7 } : State).phase = .idle := by decide

theorem test_meets_EncodeWritesCommandBuffer : (onPort 4).phase = .idle := by decide

theorem test_meets_ScanAcceptedGoesToDrain :
    ({ State.reset with outcome := .aborted, oversizeCnt := 255 } : State).phase = .idle := by decide

theorem test_meets_IllegalWordSetsFlagOnly :
    ({ State.reset with illegal := true } : State).phase = .idle ∧
    (∀ d rsv op, decodeRequest 0x0005 ≠ .illegal d rsv op) ∧
    ∃ t, exec (decodeRequest 0x0005) { State.reset with illegal := true } = .next t := by
  have h : decodeRequest 0x0005 = .scan := by decide
  rw [h]
  exact ⟨rfl, fun _ _ _ => by simp, _, rfl⟩

/-- Every constructor, at the edge of its operands. -/
theorem test_meets_DecodeOfEncodeIsIdentity :
    WellFormed .crcInit ∧ WellFormed (.crcUpdate 0xFF) ∧ WellFormed .crcFinal ∧ WellFormed .encode ∧ WellFormed .scan ∧
    WellFormed (.illegal 0xFF 0xF 0xF) ∧ WellFormed (.illegal 0 0 0) ∧ WellFormed .cmdInventoryExt ∧
    WellFormed (.rspTagNotify (List.replicate 63 1) 2 3) ∧ WellFormed (.rspTagNotify [] 2 3) ∧
    WellFormed (.rspEmpty 0 0) ∧ WellFormed (.rspOther 0xE1 (List.replicate 63 1) 2 3) ∧
    WellFormed (.rspOversize 65) ∧ WellFormed (.rspOversize 255) := by decide

theorem test_meets_EncodeOfDecodeIsIdentity : decode (.request 0xFFFF) = .ok (.illegal 0xFF 0xF 0xF) ∧
    decode (.response (0xBB :: 64 :: List.replicate 66 0xE0)) =
      .ok (.rspTagNotify (List.replicate 63 0xE0) 0xE0 0xE0) := by decide +kernel

theorem test_meets_ResponseFrameIsLengthPlusFour :
    decodeResponse [0xBB, 0x00, 0x12, 0x34] = .ok (.rspEmpty 0x12 0x34) ∧
    (∀ l, Instr.rspEmpty 0x12 0x34 ≠ .rspOversize l) := by
  exact ⟨by decide, fun _ => by simp⟩

theorem test_meets_Crc16LeavesChecksumInResult :
    (let s : State := { State.reset with reqs := [0x0001, 0x2102, 0x0C02, 0x0003, 0x0005] }
     s.phase = .idle ∧ s.schedule = [] ∧ s.reqs = (Asm.crc16 [0x21, 0x0C]).words ++ [0x0005]) ∧
    ({ State.reset with reqs := [0x0001, 0x0003] } : State).reqs = (Asm.crc16 []).words ++ [] := by decide

/-- Each of the three registers changes somewhere. -/
theorem test_meets_RegistersChangeOnlyByTheirRequests :
    (∃ t, step (onPort 0x2102) = .next t ∧ t.crcAcc ≠ (onPort 0x2102).crcAcc) ∧
    (∃ t, step { onPort 0x0003 with crcAcc := 0xE954 } = .next t ∧ t.result ≠ (onPort 0x0003).result) ∧
    (∃ t, step (onPort 0x0004) = .next t ∧ t.cmd ≠ (onPort 0x0004).cmd) ∧
    (onPort 0x0004).schedule.head? ≠ some .hostReset := by
  exact ⟨⟨_, rfl, by decide +kernel⟩, ⟨_, rfl, by decide +kernel⟩, ⟨_, rfl, by decide +kernel⟩, by decide⟩

theorem test_meets_CommandFrameIsSent : (inPhase .send).phase = .send := by decide

theorem test_meets_DrainAndSendActions :
    (blockTurn (inPhase .drain) = true ∧ (inPhase .drain).phase = .drain) ∧
    blockTurn (inPhase .send) = true ∧ (inPhase .send).phase = .send := by decide

theorem test_meets_DrainDiscardsAndLaterBytesStay :
    let s : State := { inPhase .drain with
      rxq := [0xBB, 0x05, 0xE0], schedule := [.codec, .rxByte 0xBB, .rxByte 0x00, .codec, .tick 3] }
    s.phase = .drain ∧ s.schedule = .codec :: (([0xBB, 0x00] : List Byte).map .rxByte ++ .codec :: [.tick 3]) := by
  decide

/-- Exactly 200 ms, in each phase of the reader; T9's wrap; T2's byte left waiting. -/
theorem test_meets_DeadlineEndsTheWindow :
    (let s : State := { inPhase .hunt with now := 200, rxq := [0xBB] }
     blockTurn s = true ∧ readerPhase s.phase = true ∧ 200 ≤ (s.now - s.t0).toNat) ∧
    (let s : State := { inPhase .len with t0 := 0xFFFFFFCE, now := 0x00000096 }
     blockTurn s = true ∧ readerPhase s.phase = true ∧ 200 ≤ (s.now - s.t0).toNat) ∧
    readerPhase (inPhase .body).phase = true := by decide

theorem test_meets_EmptyPollChangesNothing :
    let s : State := { inPhase .body with now := 199 }
    blockTurn s = true ∧ readerPhase s.phase = true ∧ (s.now - s.t0).toNat < 200 ∧ s.rxq = [] := by decide

/-- A start marker and another byte. -/
theorem test_meets_HuntTakesStartMarkerOnly :
    ∀ b ∈ ([0xBB, 0x7E] : List Byte),
      let s : State := { inPhase .hunt with now := 199, rxq := [b, 0x01] }
      blockTurn s = true ∧ s.phase = .hunt ∧ (s.now - s.t0).toNat < 200 ∧ s.rxq = b :: [0x01] := by decide

theorem test_meets_LengthUpTo64IsAccepted :
    ∀ b ∈ ([0, 64] : List Byte),
      let s : State := { inPhase .len with rxq := [b] }
      blockTurn s = true ∧ s.phase = .len ∧ (s.now - s.t0).toNat < 200 ∧ s.rxq = b :: [] ∧ b.toNat ≤ 64 := by decide

theorem test_meets_LengthAbove64IsRejectedAndCounted :
    ∀ b ∈ ([65, 255] : List Byte),
      let s : State := { inPhase .len with rxq := [b], oversizeCnt := 255 }
      blockTurn s = true ∧ s.phase = .len ∧ (s.now - s.t0).toNat < 200 ∧ s.rxq = b :: [] ∧ 64 < b.toNat := by decide

theorem test_meets_OversizeMessageReturnsToHunt : (inPhase .len).phase = .len := by decide

/-- The first body byte of an empty frame, and the last of the longest. -/
theorem test_meets_BodyByteIsStored :
    (let s : State := { inPhase .body with rxq := [0xBB], idx := 2, len := 0 }
     blockTurn s = true ∧ s.phase = .body ∧ (s.now - s.t0).toNat < 200 ∧ s.rxq = 0xBB :: [] ∧ s.idx.toNat < 68) ∧
    ({ inPhase .body with idx := 67, len := 64 } : State).idx.toNat < 68 := by decide

theorem test_meets_FrameBufferReadsWhatWasWritten : Memory.wf [(0, 0xBB), (3, 0x07)] = true ∧ (5 : Nat) ≠ 4 := by decide

theorem test_meets_ReaderAssemblesExactlyTheFrame :
    let s : State := { inPhase .hunt with rxq := [0x55, 0xBB, 0x02, 0xE0, 0x00, 0xF2, 0x42, 0xBB], fb := [(1, 0x40), (5, 9)] }
    let noise : List Byte := [0x55]
    let body : List Byte := [0xE0, 0x00, 0xF2, 0x42]
    let l : Byte := 2
    s.phase = .hunt ∧ s.schedule = [] ∧ s.windowOpen = true ∧ Memory.wf s.fb = true ∧ (∀ b ∈ noise, b ≠ 0xBB) ∧
      l.toNat ≤ 64 ∧ body.length = l.toNat + 2 ∧ s.rxq = noise ++ 0xBB :: l :: (body ++ [0xBB]) := by decide

theorem test_meets_WindowEndsOnceTimeHasPassed :
    let es : List Event := [.tick 150, .rxByte 0xBB, .hostRead 0, .tick 50]
    let s : State := { inPhase .body with schedule := es ++ .codec :: [.codec] }
    readerPhase s.phase = true ∧ (∀ e ∈ es, isArrival e = true) ∧ s.schedule = es ++ .codec :: [.codec] ∧
      200 ≤ (s.now + ticks es - s.t0).toNat := by decide

theorem test_meets_TagNotifyReportsAndFinishes : (decoding s4Frame 11).phase = .decode := by decide

theorem test_meets_IgnoredResponsesFinishIgnored : (inPhase .decode).phase = .decode := by decide

/-- RV2, RV4 and RV3 in the buffer. -/
theorem test_meets_ShortAndForeignFramesEmitNothing :
    (let s : State := decoding [0xBB, 0x00, 0xE0, 0x34] 0
     blockTurn s = true ∧ s.phase = .decode ∧ s.len.toNat ≤ 64 ∧ s.len = 0) ∧
    (let s : State := decoding [0xBB, 0x02, 0x21, 0x00, 0xD7, 0x27] 2
     s.len.toNat ≤ 64 ∧ s.len ≠ 0 ∧ memRead s.fb 2 ≠ 0xE0) ∧
    (let s : State := decoding [0xBB, 0x01, 0xE0, 0x55, 0x66] 1
     s.len.toNat ≤ 64 ∧ s.len = 1 ∧ memRead s.fb 2 = 0xE0) := by decide

theorem test_meets_DecodeStepFollowsIndexedPseudocode :
    (blockTurn (decoding s4Frame 11) = true ∧ (decoding s4Frame 11).phase = .decode ∧
      (decoding s4Frame 11).len.toNat ≤ 64) ∧
    (decoding (0xBB :: 64 :: List.replicate 66 0xE0) 64).len.toNat ≤ 64 := by decide

/-- The same payload behind another trailer, other stale bytes and another first byte. -/
theorem test_meets_DecodeDependsOnDeclaredPayloadOnly :
    let s : State := decoding [0xBB, 0x01, 0xE0, 0x55, 0x66] 1
    let t : State := decoding [0x00, 0x07, 0xE0, 0x12, 0x34, 0x99] 1
    blockTurn s = true ∧ blockTurn t = true ∧ s.phase = .decode ∧ t.phase = .decode ∧ s.len = t.len ∧
      s.len.toNat ≤ 64 ∧ fbAgree s.fb t.fb 2 (s.len.toNat + 2) := by
  refine ⟨by decide, by decide, by decide, by decide, by decide, by decide, fun i h1 h2 => ?_⟩
  have : i = 2 := by
    change i < 3 at h2
    omega
  subst this
  decide

/-- The longest fields that fit, under masks of another choice. -/
theorem test_meets_DecodeOfBuiltPayloadIsItsFields :
    ({ epc := 0x02, tid := 0x01, rssi := 0x04, devId := 0x80, mem := 0x20 } : Masks).admissible = true ∧
    2 + ({ s4Fields with devId := some (1, 2, 3, 4), epc := some (List.replicate 54 7), tid := some [] } :
      ResponseFields).bytes.length = Config.maxLen := by decide

theorem test_meets_FlagsSevenAndZeroNeedNoMaskChoice :
    Config.masks.admissible = true ∧
    ({ epc := 0x04, tid := 0x02, rssi := 0x01, devId := 0x10, mem := 0x08 } : Masks).admissible = true := by decide

/-- DV9's frame. -/
theorem test_meets_TrailingPayloadIsIgnored :
    decodeTagPayload Config.masks [0x04, 0x00, 0x05] =
      { outcome := .decoded, records := [.sep, .rssi 5], left := 0 } := by decide

theorem test_meets_HexTextDeterminesBytes : hexText [0x0A, 0xFF] = hexText [0x0A, 0xFF] := by decide

/-- The invariant holds in every phase: an idle block, one about to send, one in each phase of the reader, one at the
decode. -/
theorem test_meets_StepKeepsInvariant :
    StateOk (onPort 5) ∧ StateOk { inPhase .send with cmd := commandFrame } ∧ StateOk (inPhase .hunt) ∧
    StateOk { inPhase .len with fb := [(0, 0xBB)], rxq := [65] } ∧
    StateOk { inPhase .body with fb := [(0, 0xBB), (1, 64)], len := 64, idx := 67, rxq := [1] } ∧
    StateOk (decoding s4Frame 11) ∧ ∃ t, step (decoding s4Frame 11) = .next t := by
  exact ⟨by decide +kernel, by decide +kernel, by decide, by decide, by decide, by decide +kernel, _, rfl⟩

theorem test_meets_NoConditionIsFatal :
    StateOk { inPhase .body with fb := [(0, 0xBB), (1, 64)], len := 64, idx := 67, rxq := [0xBB] } := by decide

/-- Two readers in one cycle with different registers, stale lengths and stale bytes. -/
theorem test_meets_CarriedOverStateHasNoInfluence :
    let s : State := { inPhase .hunt with crcAcc := 0x1234, len := 5, idx := 8, fb := [(0, 0xBB), (1, 5)], rxq := [0xBB] }
    let t : State := { inPhase .hunt with result := 7, rxq := [0xBB] }
    StateOk s ∧ StateOk t ∧ sameCycle s t ∧ ∃ s', step s = .next s' := by
  refine ⟨by decide, by decide, ?_, _, rfl⟩
  simp [sameCycle, inPhase, State.reset]

theorem test_meets_BusyBlockTakesNoRequest :
    let s : State := { inPhase .hunt with reqs := [0x0C02] }
    blockTurn s = true ∧ s.phase ≠ .idle ∧ ∃ t, step s = .next t := by
  exact ⟨by decide, by decide, _, rfl⟩

/-- The step into a cycle, and one out of it. -/
theorem test_meets_CycleBeginsWithScanEndsWithOutcome :
    (∃ t, step (onPort 5) = .next t ∧ (onPort 5).phase = .idle ∧ t.phase ≠ .idle) ∧
    (∃ t, step { inPhase .hunt with now := 200 } = .next t ∧ (inPhase .hunt).phase ≠ .idle ∧ t.phase = .idle) := by
  exact ⟨⟨_, rfl, by decide +kernel⟩, ⟨_, rfl, by decide +kernel⟩⟩

theorem test_meets_OutwardStreamsOnlyGrow :
    (∃ t, step { inPhase .send with txs := [1] } = .next t ∧ t.txs ≠ [1]) ∧
    (∃ t, step (decoding s4Frame 11) = .next t ∧ t.sink ≠ []) := by
  exact ⟨⟨_, rfl, by decide +kernel⟩, ⟨_, rfl, by decide +kernel⟩⟩

/-- P3's cycle: stale bytes before it, noise inside it. -/
theorem test_meets_ScanCycleReportsTheTag :
    let s : State := { State.reset with
      now := 5000, rxq := [0xBB, 0x05, 0xE0], reqs := [0x0005],
      schedule := [.codec, .codec, .codec, .tick 20] ++
        (([0x55] : List Byte) ++ s4Fields.frame Config.masks 0x3D 0xC3).map .rxByte ++
        List.replicate (1 + s4Fields.bytes.length + 7) .codec }
    s.phase = .idle ∧ s.reqs = 0x0005 :: [] ∧ Memory.wf s.fb = true ∧ (20 : Millis).toNat < 200 ∧
      (∀ b ∈ ([0x55] : List Byte), b ≠ 0xBB) ∧ 2 + s4Fields.bytes.length ≤ 64 ∧
      s.schedule = [.codec, .codec, .codec, .tick 20] ++
        (([0x55] : List Byte) ++ s4Fields.frame Config.masks 0x3D 0xC3).map .rxByte ++
        List.replicate (([0x55] : List Byte).length + s4Fields.bytes.length + 7) .codec := by
  decide +kernel

/-- The frame that the fields of S4 build is S4's frame. -/
theorem test_built_frame_is_the_vector : s4Fields.frame Config.masks 0x3D 0xC3 = s4Frame := by decide

theorem test_meets_RegisterMapReadsFields : 9 ≤ (9 : BitVec 4).toNat ∧ 9 ≤ (15 : BitVec 4).toNat := by decide

/-- Z2: a reset in the middle of a frame. -/
theorem test_meets_ResetRestoresBlockOnly :
    ({ inPhase .body with len := 11, idx := 3, schedule := [.hostReset, .codec] } : State).schedule =
      .hostReset :: [.codec] := by decide

theorem test_meets_EnvironmentMovesTouchTheirOwn :
    ({ inPhase .hunt with schedule := [.rxByte 0xBB] } : State).schedule = .rxByte 0xBB :: [] ∧
    ({ inPhase .hunt with now := 0xFFFFFFFF, schedule := [.tick 1] } : State).schedule = .tick 1 :: [] ∧
    ({ inPhase .hunt with schedule := [.hostRequest 5] } : State).schedule = .hostRequest 5 :: [] ∧
    ({ inPhase .hunt with schedule := [.hostRead 15] } : State).schedule = .hostRead 15 :: [] := by decide

/-- The loop in each of its three places; the delay at exactly 100 ms. -/
theorem test_meets_HostLoopWaitsForReadyAndIdleDelay :
    (let s : State := { State.reset with schedule := [.hostLoop 0] }
     s.schedule = .hostLoop 0 :: [] ∧ s.loop = .start) ∧
    (let s : State := { State.reset with loop := .waiting, schedule := [.hostLoop 300] }
     s.schedule = .hostLoop 300 :: [] ∧ s.loop = .waiting ∧ s.reqs = [] ∧ s.phase = .idle) ∧
    (let s : State := { State.reset with loop := .idling 0xFFFFFFF0, schedule := [.hostLoop 0x54] }
     s.schedule = .hostLoop 0x54 :: [] ∧ s.loop = .idling 0xFFFFFFF0 ∧
      100 ≤ ((0x54 : Millis) - 0xFFFFFFF0).toNat) := by decide

end Sys2Proof.Tests
end

section
/-! SUPPORT. The register map of 10_state.md: the status word as a number (rules R25 to R29, R32), the value of the read port
at each index (rule R30), and the settled statement about them. -/

namespace Sys2Proof.Machine

/-- Joining two bit strings, in numbers: the left one is moved past the right one. -/
theorem toNat_append_eq_mul_add {m n : Nat} (x : BitVec m) (y : BitVec n) :
    (x ++ y).toNat = 2 ^ n * x.toNat + y.toNat := by
  rw [BitVec.toNat_append, ← Nat.shiftLeft_add_eq_or_of_lt y.isLt, Nat.shiftLeft_eq, Nat.mul_comm]

/-- `STATUS` as the number its fields write (rule R29). -/
theorem State.toNat_status (s : State) :
    s.status.toNat =
      256 * s.oversizeCnt.toNat + 16 * s.outcome.code.toNat + 2 * s.illegal.toNat + s.ready.toNat := by
  simp only [State.status, toNat_append_eq_mul_add, BitVec.toNat_ofBool, BitVec.ofNat_eq_ofNat,
    BitVec.toNat_zero]
  omega

/-- `READY` as a bit is the test `PHASE = IDLE` (rule R32). -/
theorem State.toNat_ready (s : State) : s.ready.toNat = if s.phase = .idle then 1 else 0 := by
  by_cases h : s.phase = .idle <;> simp [State.ready, h]

@[simp] theorem State.regRead_status (s : State) : s.regRead 0 = s.status := rfl
@[simp] theorem State.regRead_crcAcc (s : State) : s.regRead 1 = s.crcAcc := rfl
@[simp] theorem State.regRead_result (s : State) : s.regRead 2 = s.result := rfl

/-- The registers 3 to 8 are the bytes of `CMD` in their order, each zero-extended, so of the same number. -/
theorem State.toNat_regRead_cmd (s : State) :
    [3, 4, 5, 6, 7, 8].map (fun i => (s.regRead i).toNat) = s.cmd.bytes.map BitVec.toNat :=
  calc
    _ = s.cmd.bytes.map (fun b => (b.setWidth 16).toNat) := rfl
    _ = _ := List.map_congr_left fun _ _ => BitVec.toNat_setWidth_of_le (by decide)

/-- A reserved register reads zero: the read port's named indices all lie below 9. -/
theorem State.regRead_reserved (s : State) {i : BitVec 4} (h : 9 ≤ i.toNat) : s.regRead i = 0 := by
  unfold State.regRead
  split
  case h_10 => rfl
  all_goals omega

/-- Settles O56: the fields of the status word are weighed by their places, and every other index selects one register. -/
theorem registerMapReadsFields : Obligations.RegisterMapReadsFields := by
  intro s
  refine ⟨?_, s.regRead_crcAcc, s.regRead_result, s.toNat_regRead_cmd, fun _ hi => s.regRead_reserved hi⟩
  rw [State.regRead_status, State.toNat_status, State.toNat_ready]
  congr 2
  · cases s.outcome <;> rfl
  · cases s.illegal <;> rfl

end Sys2Proof.Machine
end

section
/-! SUPPORT. Which request word is which instruction (30_encoding.md rules R71 to R73): the decoder of request words as the
inverse of the encoder on well-formed instructions, and the settled statement about the words in numbers. -/

namespace Sys2Proof

/-- The instruction of an illegal word is well-formed exactly if its fields are not those of a legal request. -/
theorem wellFormed_illegal_iff {d : Byte} {rsv op : BitVec 4} :
    WellFormed (.illegal d rsv op) ↔ ¬ legalRequest d rsv op = true := by
  simp [WellFormed, Instr.wellFormed]

/-- A word whose fields are not those of a legal request is illegal, with its fields kept (rule R73). -/
theorem decodeRequest_of_not_legal {d : Byte} {rsv op : BitVec 4} (h : ¬ legalRequest d rsv op = true) :
    decodeRequest (requestWord d rsv op) = .illegal d rsv op := by
  simp only [decodeRequest, dataField_requestWord, rsvField_requestWord, opField_requestWord]
  repeat' split
  all_goals simp_all [legalRequest]

/-- What a request word decodes to is well-formed (so no legal word decodes to an illegal one) and encodes to that word. -/
theorem wellFormed_and_encode_decodeRequest (w : Word) :
    WellFormed (decodeRequest w) ∧ encode (decodeRequest w) = .request w := by
  rw [← requestWord_fields w]
  generalize dataField w = d, rsvField w = rsv, opField w = op
  by_cases h : legalRequest d rsv op = true
  · simp only [legalRequest, Bool.and_eq_true, Bool.or_eq_true, beq_iff_eq] at h
    obtain ⟨⟨rfl, hop⟩, hd⟩ := h
    rcases hop with (((rfl | rfl) | rfl) | rfl) | rfl <;>
      simp_all [decodeRequest, encode, WellFormed, Instr.wellFormed]
  · rw [decodeRequest_of_not_legal h]
    exact ⟨wellFormed_illegal_iff.mpr h, rfl⟩

/-- A well-formed instruction that a request word encodes is what that word decodes to. -/
theorem decodeRequest_of_encode {w : Word} {i : Instr} (hi : WellFormed i) (h : encode i = .request w) :
    decodeRequest w = i := by
  cases i <;> cases h
  case illegal d rsv op => exact decodeRequest_of_not_legal (wellFormed_illegal_iff.mp hi)
  all_goals simp [decodeRequest]

/-- A request word decodes to exactly the well-formed instruction it encodes. -/
theorem decodeRequest_eq_iff {w : Word} {i : Instr} :
    decodeRequest w = i ↔ WellFormed i ∧ encode i = .request w :=
  ⟨fun h => h ▸ wellFormed_and_encode_decodeRequest w, fun ⟨hi, h⟩ => decodeRequest_of_encode hi h⟩

/-- A word with the given fields, in numbers. -/
theorem requestWord_eq_iff {d : Byte} {rsv op : BitVec 4} {w : Word} :
    requestWord d rsv op = w ↔ w.toNat = 256 * d.toNat + 16 * rsv.toNat + op.toNat := by
  rw [← BitVec.toNat_inj, toNat_requestWord, eq_comm]

/-- A word decodes to an illegal one exactly if its fields are not those of a legal request. -/
theorem decodeRequest_illegal_iff (w : Word) :
    (∃ d rsv op, decodeRequest w = .illegal d rsv op) ↔
      ¬ legalRequest (dataField w) (rsvField w) (opField w) = true := by
  constructor
  · rintro ⟨d, rsv, op, h⟩
    obtain ⟨hi, he⟩ := decodeRequest_eq_iff.mp h
    cases he
    simpa using wellFormed_illegal_iff.mp hi
  · intro h
    exact ⟨_, _, _, requestWord_fields w ▸ decodeRequest_of_not_legal h⟩

/-- Rule R73's legal fields as digits of the word's number. -/
theorem legalRequest_fields_iff (w : Word) :
    legalRequest (dataField w) (rsvField w) (opField w) = true ↔
      (1 ≤ w.toNat % 16 ∧ w.toNat % 16 ≤ 5) ∧ w.toNat / 16 % 16 = 0 ∧
        (w.toNat / 256 = 0 ∨ w.toNat % 16 = 2) := by
  simp only [legalRequest, Bool.and_eq_true, Bool.or_eq_true, beq_iff_eq, ← BitVec.toNat_inj,
    toNat_dataField, toNat_rsvField, toNat_opField, BitVec.ofNat_eq_ofNat, BitVec.toNat_ofNat]
  omega

/-- Settles O10: a request decodes from the one word that encodes it, and that word's number is read off its fields. -/
theorem requestWordsDecodeByFields : Obligations.RequestWordsDecodeByFields := by
  intro w
  refine ⟨?_, fun b => ?_, ?_, ?_, ?_, (decodeRequest_illegal_iff w).trans (not_congr (legalRequest_fields_iff w))⟩
  all_goals simp [decodeRequest_eq_iff, WellFormed, Instr.wellFormed, encode, requestWord_eq_iff]

end Sys2Proof
end

section
/-! SUPPORT. The checksum (40_checksum.md): rule R100's function in numbers, what each of the three checksum requests does in
`IDLE` (rules R101 to R103), the word of `CRC_UPDATE`, and the settled statements about them. -/

namespace Sys2Proof.Machine

open Sys2Proof.Safety

/-! ### Rule R100 in numbers -/

/-- The top bit of an accumulator says whether its number is at least 32768. -/
theorem msb_iff_le_toNat (acc : Word) : acc.msb = true ↔ 32768 ≤ acc.toNat := by
  rw [BitVec.msb_eq_true_iff_two_mul_ge]
  omega

/-- A shift by one doubles the number and loses the bit that leaves. -/
theorem toNat_shiftLeft_one (acc : Word) : (acc <<< 1).toNat = 2 * acc.toNat % 65536 := by
  simp [Nat.shiftLeft_eq, Nat.mul_comm]

/-- A byte moved into the high byte of a word, in numbers: nothing is lost. -/
theorem toNat_zext_shiftLeft_eight (b : Byte) : (b.setWidth 16 <<< 8).toNat = b.toNat * 256 := by
  have hb := b.isLt
  simp only [BitVec.toNat_shiftLeft, BitVec.toNat_setWidth, Nat.shiftLeft_eq]
  omega

theorem toNat_crcRound (acc : Word) : (crcRound acc).toNat = natRound acc.toNat := by
  simp only [crcRound, natRound, msb_iff_le_toNat]
  by_cases h : 32768 ≤ acc.toNat
  · rw [if_pos h, if_pos h, BitVec.toNat_xor, toNat_shiftLeft_one]
    rfl
  · rw [if_neg h, if_neg h, toNat_shiftLeft_one]
    omega

theorem crcRounds_eq_iterate (n : Nat) (acc : Word) : crcRounds n acc = crcRound^[n] acc := by
  induction n generalizing acc with
  | zero => rfl
  | succ n ih => exact ih (crcRound acc)

/-- Any number of rounds: taking the number commutes with one round, so with each further one. -/
theorem toNat_crcRounds (n : Nat) (acc : Word) : (crcRounds n acc).toNat = natRound^[n] acc.toNat := by
  have hround : Function.Semiconj BitVec.toNat crcRound natRound := toNat_crcRound
  rw [crcRounds_eq_iterate]
  exact hround.iterate_right n acc

theorem toNat_crcStep (acc : Word) (b : Byte) : (crcStep acc b).toNat = natStep acc.toNat b.toNat := by
  rw [crcStep, toNat_crcRounds, BitVec.toNat_xor, toNat_zext_shiftLeft_eight, natStep]

@[simp] theorem crcFold_cons (acc : Word) (b : Byte) (s : List Byte) :
    crcFold acc (b :: s) = crcFold (crcStep acc b) s := rfl

theorem toNat_crcFold (acc : Word) (s : List Byte) :
    (crcFold acc s).toNat = (s.map BitVec.toNat).foldl natStep acc.toNat := by
  induction s generalizing acc with
  | nil => rfl
  | cons b s ih => rw [crcFold_cons, ih, toNat_crcStep, List.map_cons, List.foldl_cons]

/-- Settles O15: a round on words and a round on naturals agree, and so do the eight of a step and the steps of a string. -/
theorem checksumMatchesRule : Obligations.ChecksumMatchesRule := by
  refine ⟨toNat_crcStep, fun s => ?_⟩
  rw [checksum, BitVec.toNat_xor, toNat_crcFold, natChecksum]
  rfl

/-! ### The checksum requests in `IDLE` -/

theorem exec_crcInit_of_idle {s : State} (h : s.phase = .idle) :
    exec .crcInit s = .next { s with crcAcc := 0xFFFF, illegal := false } :=
  congrArg Host.Outcome.next (State.takenIn_of_phase _ h)

theorem exec_crcUpdate_of_idle {s : State} (b : Byte) (h : s.phase = .idle) :
    exec (.crcUpdate b) s = .next { s with crcAcc := crcStep s.crcAcc b, illegal := false } :=
  congrArg Host.Outcome.next (State.takenIn_of_phase _ h)

/-- The final exclusive-or has every bit set, so it is the complement (rule R103). -/
theorem xor_crcXorOut (acc : Word) : acc ^^^ Config.crcXorOut = ~~~acc :=
  BitVec.xor_allOnes

theorem exec_crcFinal_of_idle {s : State} (h : s.phase = .idle) :
    exec .crcFinal s = .next { s with result := ~~~s.crcAcc, illegal := false } := by
  rw [← xor_crcXorOut]
  exact congrArg Host.Outcome.next (State.takenIn_of_phase _ h)

/-- Rule R102's word `(b << 8) | 0x0002` has the fields `b`, 0 and 2: its two parts share no bit. -/
theorem requestWord_crcUpdate (b : Byte) : requestWord b 0 2 = b.setWidth 16 <<< 8 ||| 0x0002 := by
  rw [requestWord_eq_iff, BitVec.toNat_or, toNat_zext_shiftLeft_eight]
  have hor : b.toNat * 256 ||| 2 = b.toNat * 256 + 2 := by
    rw [← Nat.shiftLeft_eq _ 8, Nat.shiftLeft_add_eq_or_of_lt (by decide)]
  simp [hor, Nat.mul_comm]

theorem decodeRequest_crcUpdate (b : Byte) :
    decodeRequest (b.setWidth 16 <<< 8 ||| 0x0002) = .crcUpdate b :=
  decodeRequest_of_encode rfl (congrArg Encoding.request (requestWord_crcUpdate b))

/-- Settles O4: an idle block takes the request, and its word is the one that encodes it. -/
theorem crcInitLoadsInitialValue : Obligations.CrcInitLoadsInitialValue :=
  ⟨decodeRequest_of_encode rfl rfl, fun _ => exec_crcInit_of_idle⟩

/-- Settles O5: an idle block takes the request; the rule's two values and the reset value are evaluated. -/
theorem crcUpdateStepsAccumulator : Obligations.CrcUpdateStepsAccumulator :=
  ⟨decodeRequest_crcUpdate, fun b _ => exec_crcUpdate_of_idle b, by decide, by decide, rfl⟩

/-- Settles O6: an idle block takes the request, and its final exclusive-or is the complement. -/
theorem crcFinalComplementsAccumulator : Obligations.CrcFinalComplementsAccumulator :=
  ⟨decodeRequest_of_encode rfl rfl, fun _ => exec_crcFinal_of_idle, by decide, by decide⟩

end Sys2Proof.Machine
end

section
/-! SUPPORT. The encoder (41_encoder.md): what `ENCODE` does in `IDLE` (rule R121), the block's turn in `DRAIN` and in `SEND`
(rules R123 and R124), and the settled statements about them. -/

namespace Sys2Proof.Machine

open Sys2Proof.Safety

theorem exec_encode_of_idle {s : State} (h : s.phase = .idle) :
    exec .encode s = .next { s with cmd := ⟨0xBB, 0x02, 0x21, 0x0C, 0x16, 0xAB⟩, illegal := false } := by
  rw [← commandFrame_eq]
  exact congrArg Host.Outcome.next (State.takenIn_of_phase _ h)

/-- Settles O7: an idle block takes the request, and the frame it computes is the six bytes of the rule. -/
theorem encodeWritesCommandBuffer : Obligations.EncodeWritesCommandBuffer :=
  ⟨decodeRequest_of_encode rfl rfl, rfl, fun _ => exec_encode_of_idle⟩

theorem step_drain {s : State} (ht : blockTurn s = true) (hp : s.phase = .drain) :
    step s = .next (turnTaken s).drainRx :=
  (step_of_blockTurn ht).trans (blockStep_drain hp)

/-- In `SEND` the bytes of `CMD` are sent, whether or not they are the command frame (log 9). -/
theorem step_send {s : State} (ht : blockTurn s = true) (hp : s.phase = .send) :
    step s = .next ((turnTaken s).sendFrame s.cmd) :=
  (step_of_blockTurn ht).trans (blockStep_send hp)

/-- Settles O23: in its turn the block drains in `DRAIN` and sends what `CMD` holds in `SEND`. -/
theorem drainAndSendActions : Obligations.DrainAndSendActions :=
  ⟨fun _ => step_drain, fun _ => step_send⟩

end Sys2Proof.Machine
end

section
/-! SUPPORT. The reader (42_reader.md): the block's turn in a reader phase once the window has closed (rules R145, R148 and
R150), with a byte to hunt (rule R144) and with a length byte (rules R146 and R147), and the settled statements about them. -/

namespace Sys2Proof.Machine

open Sys2Proof.Safety

/-- The deadline comes before the transport: no hypothesis on `RXQ` is needed. -/
theorem step_reader_closed {s : State} (ht : blockTurn s = true) (hp : readerPhase s.phase = true)
    (hw : s.windowOpen = false) : step s = .next (deadline (turnTaken s)) :=
  (step_of_blockTurn ht).trans (blockStep_reader_closed hp hw)

theorem step_hunt_cons {s : State} {b : Byte} {r : List Byte} (ht : blockTurn s = true) (hp : s.phase = .hunt)
    (hw : s.windowOpen = true) (hr : s.rxq = b :: r) :
    step s = .next (huntByte b { turnTaken s with rxq := r }) :=
  (step_of_blockTurn ht).trans (blockStep_hunt_cons hp hw hr)

theorem step_len_accept {s : State} {b : Byte} {r : List Byte} (ht : blockTurn s = true) (hp : s.phase = .len)
    (hw : s.windowOpen = true) (hr : s.rxq = b :: r) (hb : b.toNat ≤ 64) :
    step s = .next { turnTaken s with rxq := r, len := b, fb := memWrite s.fb 1 b, idx := 2, phase := .body } :=
  (step_of_blockTurn ht).trans (blockStep_len_accept hp hw hr hb)

/-- A rejected length is handled as the message `RSP_OVERSIZE`, its byte popped. -/
theorem step_len_oversize {s : State} {b : Byte} {r : List Byte} (ht : blockTurn s = true) (hp : s.phase = .len)
    (hw : s.windowOpen = true) (hr : s.rxq = b :: r) (hb : 64 < b.toNat) :
    step s = exec (.rspOversize b) { turnTaken s with rxq := r } :=
  (step_of_blockTurn ht).trans (blockStep_len_oversize hp hw hr hb)

theorem exec_rspOversize_of_len {s : State} (l : Byte) (h : s.phase = .len) :
    exec (.rspOversize l) s = .next { s with
      len := l, oversizeCnt := BitVec.ofNat 8 (min (s.oversizeCnt.toNat + 1) 255), phase := .hunt } := by
  rw [← satInc_eq]
  exact congrArg Host.Outcome.next (State.takenIn_of_phase _ h)

/-- Settles O25: 200 ms or more means a closed window, and the deadline chooses the outcome by the phase alone. -/
theorem deadlineEndsTheWindow : Obligations.DeadlineEndsTheWindow := by
  intro s ht hp hw
  rw [step_reader_closed ht hp ((windowOpen_eq_false_iff s).2 hw), deadline_eq]
  rfl

/-- Settles O27: the popped byte either is the start marker or leaves the state as the pop left it. -/
theorem huntTakesStartMarkerOnly : Obligations.HuntTakesStartMarkerOnly := by
  intro s b r ht hp hw hr
  rw [step_hunt_cons ht hp ((windowOpen_iff s).2 hw) hr]
  by_cases hb : b = 0xBB
  · rw [if_pos hb]
    exact congrArg Host.Outcome.next (if_pos hb)
  · rw [if_neg hb]
    exact congrArg Host.Outcome.next (if_neg hb)

/-- Settles O28: the window is open and the length is in range, so the byte is stored and the body begins. -/
theorem lengthUpTo64IsAccepted : Obligations.LengthUpTo64IsAccepted := by
  intro s b r ht hp hw hr hb
  exact step_len_accept ht hp ((windowOpen_iff s).2 hw) hr hb

/-- Settles O29: the step is the message `RSP_OVERSIZE` after the pop, which the phase `LEN` takes. -/
theorem lengthAbove64IsRejectedAndCounted : Obligations.LengthAbove64IsRejectedAndCounted := by
  intro s b r ht hp hw hr hb
  rw [step_len_oversize ht hp ((windowOpen_iff s).2 hw) hr hb]
  exact exec_rspOversize_of_len b hp

end Sys2Proof.Machine
end

section
/-! SUPPORT. The decoder (43_decoder.md): the walk over the bytes not yet consumed and the walk by index of rule R170's
pseudocode stand at the same place after every field, so the decode step does what the pseudocode does; and the settled
statements about the step. -/

namespace Sys2Proof.Machine

open Sys2Proof.Safety

/-! ### The cursor of bytes and the cursor by index -/

/-- The decoder's cursor when the pseudocode's stands at index `c` of a payload that ends before `pEnd`. -/
def cursorAt (fb : Memory) (pEnd c : Nat) (out : List Record) : Cursor :=
  { rest := memSlice fb c (pEnd - c), emitted := out }

@[simp] theorem cursorAt_emitted (fb : Memory) (pEnd c : Nat) (out : List Record) :
    (cursorAt fb pEnd c out).emitted = out := rfl

/-- What is emitted at a place does not move it. -/
@[simp] theorem cursorAt_with_emitted (fb : Memory) (pEnd c : Nat) (out out' : List Record) :
    ({ rest := (cursorAt fb pEnd c out).rest, emitted := out' } : Cursor) = cursorAt fb pEnd c out' := rfl

/-- The check `need` is the pseudocode's bound, and the bytes taken are those from its index on. -/
theorem takeBytes_cursorAt {fb : Memory} {pEnd c : Nat} (out : List Record) (k : Nat) (hc : c ≤ pEnd) :
    takeBytes (cursorAt fb pEnd c out) k =
      if c + k ≤ pEnd then some (memSlice fb c k, cursorAt fb pEnd (c + k) out) else none := by
  have hbound : k ≤ pEnd - c ↔ c + k ≤ pEnd := by omega
  simp only [takeBytes_eq, cursorAt, length_memSlice, hbound]
  split
  · next h => rw [take_memSlice _ _ (hbound.2 h), drop_memSlice _ _ (hbound.2 h), Nat.sub_sub]
  · rfl

/-- A length byte in bounds, at its index, and the cursor past it. -/
theorem cursorAt_of_lt {fb : Memory} {pEnd c : Nat} (out : List Record) (h : c < pEnd) :
    cursorAt fb pEnd c out =
      { rest := memRead fb c :: memSlice fb (c + 1) (pEnd - (c + 1)), emitted := out } := by
  have hleft : pEnd - c = pEnd - (c + 1) + 1 := by omega
  rw [cursorAt, hleft, memSlice_succ]

theorem takePrefixed_cursorAt_of_lt {fb : Memory} {pEnd c : Nat} (out : List Record) (h : c < pEnd) :
    takePrefixed (cursorAt fb pEnd c out) = takeBytes (cursorAt fb pEnd (c + 1) out) (memRead fb c).toNat := by
  rw [cursorAt_of_lt out h]
  rfl

/-- At the end of the payload there is no length byte. -/
theorem takePrefixed_cursorAt_end (fb : Memory) (c : Nat) (out : List Record) :
    takePrefixed (cursorAt fb c c out) = none := by
  simp [takePrefixed, cursorAt]

/-- The two bytes of an RSSI as the pseudocode's `256 * FB[c] + FB[c+1]`. -/
theorem rssiRaw_eq_ofNat (hi lo : Byte) : rssiRaw hi lo = BitVec.ofNat 16 (256 * hi.toNat + lo.toNat) := by
  have hhi := hi.isLt
  have hlo := lo.isLt
  apply BitVec.eq_of_toNat_eq
  rw [rssiRaw, toNat_append_eq_mul_add, BitVec.toNat_ofNat]
  omega

/-! ### Every field keeps the two walks together -/

/-- The two walks agree: both have stopped with the same records, or both stand at one place in the payload. -/
inductive WalksAgree (fb : Memory) (pEnd : Nat) : Except Cursor Cursor → IndexWalk → Prop
  | stopped (c : Cursor) : WalksAgree fb pEnd (.error c) (.error c.emitted)
  | standing (c : Nat) (out : List Record) (h : c ≤ pEnd) :
      WalksAgree fb pEnd (.ok (cursorAt fb pEnd c out)) (.ok (c, out))

/-- A further field, from wherever the walks stand, keeps them together. -/
theorem WalksAgree.bind {fb : Memory} {pEnd : Nat} {x : Except Cursor Cursor} {y : IndexWalk}
    {f : Cursor → Except Cursor Cursor} {g : Nat × List Record → IndexWalk} (h : WalksAgree fb pEnd x y)
    (hfg : ∀ c out, c ≤ pEnd → WalksAgree fb pEnd (f (cursorAt fb pEnd c out)) (g (c, out))) :
    WalksAgree fb pEnd (x.bind f) (y.bind g) := by
  cases h with
  | stopped c => exact .stopped c
  | standing c out hc => exact hfg c out hc

theorem fieldDevId_walksAgree (m : Masks) (fb : Memory) (pEnd : Nat) (flags : Byte) (c : Nat) (out : List Record)
    (hc : c ≤ pEnd) :
    WalksAgree fb pEnd (fieldDevId m flags (cursorAt fb pEnd c out))
      (ixSkip pEnd 4 (selected flags m.devId) c out) := by
  unfold fieldDevId ixSkip
  rw [takeBytes_cursorAt out _ hc]
  by_cases hs : selected flags m.devId = true
  · by_cases hk : c + 4 ≤ pEnd
    · simpa [hs, hk, Config.devIdLen] using WalksAgree.standing (c + 4) out hk
    · simpa [hs, hk, Config.devIdLen] using WalksAgree.stopped (cursorAt fb pEnd c out)
  · simpa [hs] using WalksAgree.standing c out hc

/-- The common form of the fields with a length byte (rules R177 to R179): what the bytes give is emitted. -/
def fieldPrefixed (sel : Bool) (emitted : List Byte → List Record) (c : Cursor) : Except Cursor Cursor :=
  if sel then
    match takePrefixed c with
    | none => .error c
    | some (bytes, c') => .ok { c' with emitted := c'.emitted ++ emitted bytes }
  else .ok c

theorem fieldEpc_eq (m : Masks) (flags : Byte) :
    fieldEpc m flags = fieldPrefixed (selected flags m.epc) fun s => [.epc s] := rfl

theorem fieldTid_eq (m : Masks) (flags : Byte) :
    fieldTid m flags = fieldPrefixed (selected flags m.tid) fun s => [.tid s] := rfl

/-- User memory is the case that emits nothing. -/
theorem fieldMem_eq (m : Masks) (flags : Byte) :
    fieldMem m flags = fieldPrefixed (selected flags m.mem) fun _ => [] := by
  funext c
  unfold fieldMem fieldPrefixed
  cases takePrefixed c <;> simp

theorem fieldPrefixed_walksAgree (fb : Memory) (pEnd : Nat) (sel : Bool) (emitted : List Byte → List Record)
    (c : Nat) (out : List Record) (hc : c ≤ pEnd) :
    WalksAgree fb pEnd (fieldPrefixed sel emitted (cursorAt fb pEnd c out))
      (ixPrefixed fb pEnd sel emitted c out) := by
  unfold fieldPrefixed ixPrefixed
  cases sel with
  | false => exact .standing c out hc
  | true =>
    rcases Nat.lt_or_eq_of_le hc with hlt | rfl
    · rw [takePrefixed_cursorAt_of_lt out hlt, takeBytes_cursorAt out _ hlt]
      by_cases hn : c + 1 + (memRead fb c).toNat ≤ pEnd
      · simpa [hn, Nat.succ_le_of_lt hlt] using WalksAgree.standing (fb := fb) _ (out ++ emitted _) hn
      · simpa [hn, Nat.succ_le_of_lt hlt] using WalksAgree.stopped (cursorAt fb pEnd c out)
    · simpa [takePrefixed_cursorAt_end] using WalksAgree.stopped (cursorAt fb c c out)

theorem fieldRssi_walksAgree (m : Masks) (fb : Memory) (pEnd : Nat) (flags : Byte) (c : Nat) (out : List Record)
    (hc : c ≤ pEnd) :
    WalksAgree fb pEnd (fieldRssi m flags (cursorAt fb pEnd c out))
      (ixRssi fb pEnd (selected flags m.rssi) c out) := by
  unfold fieldRssi ixRssi
  rw [takeBytes_cursorAt out _ hc]
  by_cases hs : selected flags m.rssi = true
  · by_cases hk : c + 2 ≤ pEnd
    · simpa [hs, hk, Config.rssiLen, memSlice_succ, rssiRaw_eq_ofNat] using WalksAgree.standing (c + 2) _ hk
    · simpa [hs, hk, Config.rssiLen] using WalksAgree.stopped (cursorAt fb pEnd c out)
  · simpa [hs] using WalksAgree.standing c out hc

/-! ### The whole walk -/

/-- The decoder's walk as its fields in sequence. -/
theorem walkFields_eq_bind (m : Masks) (flags : Byte) (c : Cursor) :
    walkFields m flags c =
      (fieldDevId m flags c).bind fun c => (fieldEpc m flags c).bind fun c => (fieldTid m flags c).bind fun c =>
        (fieldMem m flags c).bind fun c => fieldRssi m flags c := by
  unfold walkFields
  repeat' split
  all_goals simp only [Except.bind, *]

/-- The pseudocode's walk as its fields in sequence. -/
theorem ixFields_eq_bind (m : Masks) (fb : Memory) (pEnd : Nat) (f : Byte) :
    ixFields m fb pEnd f =
      (ixSkip pEnd 4 (selected f m.devId) 4 [.sep]).bind fun p =>
        (ixPrefixed fb pEnd (selected f m.epc) (fun s => [.epc s]) p.1 p.2).bind fun p =>
          (ixPrefixed fb pEnd (selected f m.tid) (fun s => [.tid s]) p.1 p.2).bind fun p =>
            (ixPrefixed fb pEnd (selected f m.mem) (fun _ => []) p.1 p.2).bind fun p =>
              ixRssi fb pEnd (selected f m.rssi) p.1 p.2 := by
  unfold ixFields selected
  repeat' split
  all_goals simp only [Except.bind, *]

/-- From index 4 on, the walks stay together through all five fields. -/
theorem walkFields_walksAgree (m : Masks) (fb : Memory) {pEnd : Nat} (flags : Byte) (h : 4 ≤ pEnd) :
    WalksAgree fb pEnd (walkFields m flags (cursorAt fb pEnd 4 [.sep])) (ixFields m fb pEnd flags) := by
  rw [walkFields_eq_bind, ixFields_eq_bind, fieldEpc_eq, fieldTid_eq, fieldMem_eq]
  refine .bind (fieldDevId_walksAgree m fb pEnd flags 4 [.sep] h) fun c out hc => ?_
  refine .bind (fieldPrefixed_walksAgree fb pEnd _ _ c out hc) fun c out hc => ?_
  refine .bind (fieldPrefixed_walksAgree fb pEnd _ _ c out hc) fun c out hc => ?_
  refine .bind (fieldPrefixed_walksAgree fb pEnd _ _ c out hc) fun c out hc => ?_
  exact fieldRssi_walksAgree m fb pEnd flags c out hc

/-! ### What a decode reports -/

/-- What a decode shows outside: its outcome and its records. -/
def Decoded.shown (d : Decoded) : CycleOutcome × List Record := (d.outcome, d.records)

/-- `L = 0`: ignored before any byte is read (rule R172). -/
@[simp] theorem ixDecode_zero (m : Masks) (fb : Memory) : ixDecode m fb 0 = (.ignored, []) := rfl

/-- A code other than `RESP_TAG` (rule R173). -/
theorem ixDecode_of_code_ne {m : Masks} {fb : Memory} (l : Nat) (h : memRead fb 2 ≠ Config.respTag) :
    ixDecode m fb l = (.ignored, []) := by
  simp [ixDecode, h]

/-- The code `RESP_TAG` with no flags byte after it (rule R174). -/
theorem ixDecode_one {m : Masks} {fb : Memory} (h : memRead fb 2 = Config.respTag) :
    ixDecode m fb 1 = (.aborted, []) := by
  simp [ixDecode, h]

/-- A tag notification, its code at index 2 and its payload from index 3 on. -/
theorem shown_decodeTagPayload (m : Masks) {fb : Memory} (n : Nat) (h : memRead fb 2 = Config.respTag) :
    (decodeTagPayload m (memSlice fb 3 n)).shown = ixDecode m fb (n + 1) := by
  cases n with
  | zero => exact (ixDecode_one h).symm
  | succ k =>
    have hwalk := walkFields_walksAgree m fb (memRead fb 3) (show 4 ≤ 2 + (k + 1 + 1) by omega)
    have hrest : 2 + (k + 1 + 1) - 4 = k := by omega
    simp only [cursorAt, hrest] at hwalk
    have hcode : 2 + 1 ≤ 2 + (k + 1 + 1) := by omega
    have hflags : 3 + 1 ≤ 2 + (k + 1 + 1) := by omega
    simp only [memSlice_succ, decodeTagPayload, ixDecode, h, hcode, hflags]
    generalize walkFields _ _ _ = x, ixFields _ _ _ _ = y at hwalk ⊢
    cases hwalk <;> simp [Decoded.shown]

/-- The frame in `FB` is decoded as the pseudocode decodes it. -/
theorem shown_frameDecoded (s : State) :
    (frameDecoded s).shown = ixDecode Config.masks s.fb s.len.toNat := by
  unfold frameDecoded frameInstr
  cases s.len.toNat with
  | zero => rfl
  | succ n =>
    rw [memSlice_succ, responseOf]
    by_cases hcode : memRead s.fb 2 = Config.respTag
    · rw [if_pos hcode]
      exact shown_decodeTagPayload Config.masks n hcode
    · rw [if_neg hcode, ixDecode_of_code_ne _ hcode]
      rfl

/-- In its turn in `DECODE` the block reports what the frame in `FB` decodes to. -/
theorem step_decode {s : State} (ht : blockTurn s = true) (hp : s.phase = .decode) (hl : s.len.toNat ≤ 64) :
    step s = .next ((turnTaken s).report (frameDecoded (turnTaken s))) :=
  (step_of_blockTurn ht).trans (blockStep_decode_report hp hl)

/-- Settles O38: the step reports the decoded frame, and the two walks over it agree. -/
theorem decodeStepFollowsIndexedPseudocode : Obligations.DecodeStepFollowsIndexedPseudocode := by
  intro s ht hp hl
  have hshown : (frameDecoded (turnTaken s)).shown = ixDecode Config.masks s.fb s.len.toNat :=
    shown_frameDecoded (turnTaken s)
  rw [step_decode ht hp hl, ← hshown]
  rfl

/-- A decode step for which the pseudocode emits nothing writes the outcome and the phase only. -/
theorem step_decode_of_no_record {s : State} {code : CycleOutcome} (ht : blockTurn s = true)
    (hp : s.phase = .decode) (hl : s.len.toNat ≤ 64)
    (h : ixDecode Config.masks s.fb s.len.toNat = (code, [])) :
    step s = .next { s with schedule := s.schedule.tail, outcome := code, phase := .idle } := by
  rw [decodeStepFollowsIndexedPseudocode s ht hp hl, h]
  simp only [List.append_nil]

/-- Settles O37: in each of the three cases the pseudocode finishes before it emits the separator. -/
theorem shortAndForeignFramesEmitNothing : Obligations.ShortAndForeignFramesEmitNothing := by
  intro s ht hp hl
  refine ⟨fun hlen => ?_, fun _ hcode => ?_, fun hlen hcode => ?_⟩
  · exact step_decode_of_no_record ht hp hl (by rw [hlen]; exact ixDecode_zero _ _)
  · exact step_decode_of_no_record ht hp hl (ixDecode_of_code_ne _ hcode)
  · exact step_decode_of_no_record ht hp hl (by rw [hlen]; exact ixDecode_one hcode)

end Sys2Proof.Machine
end

section
/-! SUPPORT. The decimal text of an RSSI (43_decoder.md rule R186): what a string of decimal digits writes, that one more
digit writes ten times as much and the digit, and the settled statement about `dec2`. -/

namespace Sys2Proof.Machine

open Sys2Proof.Safety

/-- The character is a digit, and its value is the number's last digit. -/
theorem decDigit_spec (n : Nat) : (decDigit n).isDigit = true ∧ (decDigit n).toNat - 48 = n % 10 := by
  have hdigits : ∀ k < 10, (hexDigit (BitVec.ofNat 4 k)).isDigit = true ∧
      (hexDigit (BitVec.ofNat 4 k)).toNat - 48 = k := by decide
  exact hdigits (n % 10) (Nat.mod_lt n (by decide))

theorem decDigit_ne_zero {n : Nat} (h : n % 10 ≠ 0) : decDigit n ≠ '0' := by
  intro he
  have hval := (decDigit_spec n).2
  rw [he] at hval
  exact h hval.symm

theorem digitsNumber_concat (t : List Char) (c : Char) :
    digitsNumber (t ++ [c]) =
      if c.isDigit then 10 * digitsNumber t + (c.toNat - 48) else digitsNumber t := by
  rw [digitsNumber, List.foldl_append]
  rfl

/-- The characters are decimal digits that write the number `n`. -/
structure WritesNumber (t : List Char) (n : Nat) : Prop where
  digits : ∀ c ∈ t, c.isDigit = true
  number : digitsNumber t = n

theorem writesNumber_nil : WritesNumber [] 0 := ⟨by simp, rfl⟩

/-- One more digit: ten times the number, and the digit. -/
theorem WritesNumber.snoc {t : List Char} {n : Nat} (h : WritesNumber t n) (d : Nat) :
    WritesNumber (t ++ [decDigit d]) (10 * n + d % 10) := by
  obtain ⟨hdigit, hvalue⟩ := decDigit_spec d
  constructor
  · intro c hc
    rcases List.mem_append.1 hc with hc | hc
    · exact h.digits c hc
    · rwa [List.mem_singleton.1 hc]
  · rw [digitsNumber_concat, if_pos hdigit, h.number, hvalue]

/-- With enough fuel the digits of `n` write `n`. -/
theorem writesNumber_decDigitsFuel {fuel n : Nat} (h : n < fuel) : WritesNumber (decDigitsFuel fuel n) n := by
  induction fuel generalizing n with
  | zero => omega
  | succ fuel ih =>
    unfold decDigitsFuel
    split
    · next hn => simpa [Nat.mod_eq_of_lt hn] using writesNumber_nil.snoc n
    · simpa [Nat.div_add_mod] using (ih (n := n / 10) (by omega)).snoc n

/-- With enough fuel the digits of a positive number begin with a digit that is not zero. -/
theorem decDigitsFuel_eq_cons {fuel n : Nat} (h : n < fuel) (hn : 0 < n) :
    ∃ c r, decDigitsFuel fuel n = c :: r ∧ c ≠ '0' := by
  induction fuel generalizing n with
  | zero => omega
  | succ fuel ih =>
    unfold decDigitsFuel
    split
    · exact ⟨_, [], rfl, decDigit_ne_zero (by omega)⟩
    · obtain ⟨c, r, hcr, hc⟩ := ih (n := n / 10) (by omega) (by omega)
      exact ⟨c, r ++ [decDigit n], by rw [hcr, List.cons_append], hc⟩

theorem writesNumber_decDigits (n : Nat) : WritesNumber (decDigits n) n :=
  writesNumber_decDigitsFuel (Nat.lt_succ_self n)

/-- No leading zero but for the number zero. -/
theorem decDigits_no_leading_zero (n : Nat) :
    decDigits n = ['0'] ∨ (decDigits n ≠ [] ∧ (decDigits n).head? ≠ some '0') := by
  rcases Nat.eq_zero_or_pos n with rfl | hn
  · exact .inl rfl
  · obtain ⟨c, r, hcr, hc⟩ := decDigitsFuel_eq_cons (Nat.lt_succ_self n) hn
    exact .inr (by simp [decDigits, hcr, hc])

/-- The digits of `a / 100` and the two fractional digits of `a` together write `a`. -/
theorem writesNumber_hundredths (a : Nat) :
    WritesNumber (decDigits (a / 100) ++ [decDigit (a % 100 / 10), decDigit (a % 100 % 10)]) a := by
  have hall := ((writesNumber_decDigits (a / 100)).snoc (a % 100 / 10)).snoc (a % 100 % 10)
  have ha : 10 * (10 * (a / 100) + a % 100 / 10 % 10) + a % 100 % 10 % 10 = a := by omega
  simpa only [ha, List.append_assoc, List.cons_append, List.nil_append] using hall

/-- Settles O47: the text is the sign, the digits of `|raw| / 100`, the point, and the last two digits of `|raw|`. -/
theorem rssiTextIsExactDecimal : Obligations.RssiTextIsExactDecimal := by
  intro raw
  obtain ⟨hdigits, hnumber⟩ := writesNumber_hundredths raw.toInt.natAbs
  exact ⟨_, _, rfl, rfl, hdigits, hnumber, decDigits_no_leading_zero _⟩

end Sys2Proof.Machine
end

section
/-! SUPPORT. The scan cycle (44_scan_cycle.md): what `SCAN` does in `IDLE` (rule R201), and the settled statement about it. -/

namespace Sys2Proof.Machine

open Sys2Proof.Safety

theorem exec_scan_of_idle {s : State} (h : s.phase = .idle) :
    exec .scan s = .next { s with
      illegal := false, outcome := .none, oversizeCnt := 0, cmd := ⟨0xBB, 0x02, 0x21, 0x0C, 0x16, 0xAB⟩,
      phase := .drain } := by
  rw [← commandFrame_eq]
  exact congrArg Host.Outcome.next (State.takenIn_of_phase _ h)

/-- Settles O8: an idle block takes the request, and the frame it writes is the six bytes of the rule. -/
theorem scanAcceptedGoesToDrain : Obligations.ScanAcceptedGoesToDrain :=
  ⟨decodeRequest_of_encode rfl rfl, fun _ => exec_scan_of_idle⟩

end Sys2Proof.Machine
end

section
/-! SUPPORT. The exceptions (60_exceptions.md): what an illegal word and a legal one do to `ILLEGAL` in `IDLE` (rules R227 and
R26), and the settled statement about it. -/

namespace Sys2Proof.Machine

theorem exec_illegal_of_idle {s : State} (d : Byte) (rsv op : BitVec 4) (h : s.phase = .idle) :
    exec (.illegal d rsv op) s = .next { s with illegal := true } :=
  congrArg Host.Outcome.next (State.takenIn_of_phase _ h)

/-- A legal request taken in `IDLE` clears `ILLEGAL` (rule R26), whichever of the five it is. -/
theorem illegal_eq_false_of_legal_request {w : Word} {s t : State} (hp : s.phase = .idle)
    (hw : ∀ d rsv op, decodeRequest w ≠ .illegal d rsv op) (h : exec (decodeRequest w) s = .next t) :
    t.illegal = false := by
  obtain ⟨-, rfl⟩ | ⟨b, -, rfl⟩ | ⟨-, rfl⟩ | ⟨-, rfl⟩ | ⟨-, rfl⟩ | ⟨d, rsv, op, hi, -⟩ := exec_request_cases hp h
  case inr.inr.inr.inr.inr => exact absurd hi (hw d rsv op)
  all_goals rfl

/-- Settles O9: an idle block takes the illegal word, and every legal request it takes clears the flag. -/
theorem illegalWordSetsFlagOnly : Obligations.IllegalWordSetsFlagOnly :=
  ⟨fun d rsv op _ => exec_illegal_of_idle d rsv op, fun _ _ _ => illegal_eq_false_of_legal_request⟩

end Sys2Proof.Machine
end

section
/-! SUPPORT. Reset (70_reset_and_hazards.md): the reset action with every field written out (rules R250 and R251), the step of
a machine whose next move is the host's reset, and the settled statement about it. -/

namespace Sys2Proof.Machine

open Sys2Proof.Safety

/-- The block's fields have the values of rule R42, whatever they were; every other field is kept (rule R251). -/
theorem State.resetBlock_eq (s : State) :
    s.resetBlock = {
      crcAcc := 0xFFFF, result := 0, cmd := ⟨0, 0, 0, 0, 0, 0⟩, illegal := false, outcome := .none,
      oversizeCnt := 0, phase := .idle, len := 0, idx := 0, t0 := 0, fb := [],
      rxq := s.rxq, txs := s.txs, now := s.now, sink := s.sink, reqs := s.reqs, reads := s.reads,
      loop := s.loop, schedule := s.schedule } := rfl

/-- The host's reset outranks the block's phase: its move is the reset action in every state (rule R250). -/
theorem step_hostReset {s : State} {es : List Event} (h : s.schedule = .hostReset :: es) :
    step s = .next ({ s with schedule := es } : State).resetBlock :=
  step_of_schedule h (by decide)

/-- Settles O57: the move is the reset action, on the state whose schedule has the move used up. -/
theorem resetRestoresBlockOnly : Obligations.ResetRestoresBlockOnly := by
  intro s es h
  rw [step_hostReset h, State.resetBlock_eq]

end Sys2Proof.Machine
end

section
/-! SUPPORT. The encodings of all three domains (30_encoding.md): the encoder and the decoders as inverses of each other, and
the settled statements about them. -/

namespace Sys2Proof

/-! ### Responses by their payload -/

theorem responseOf_of_code_ne {code : Byte} (rest : List Byte) (hi lo : Byte) (h : code ≠ Config.respTag) :
    responseOf (code :: rest) hi lo = .rspOther code rest hi lo := if_neg h

/-- What a response is, by its payload (rules R77, R83). -/
theorem responseOf_cases (payload : List Byte) (hi lo : Byte) :
    (payload = [] ∧ responseOf payload hi lo = .rspEmpty hi lo) ∨
    (∃ rest, payload = Config.respTag :: rest ∧ responseOf payload hi lo = .rspTagNotify rest hi lo) ∨
    (∃ code rest, payload = code :: rest ∧ code ≠ Config.respTag ∧
      responseOf payload hi lo = .rspOther code rest hi lo) := by
  match payload with
  | [] => exact .inl ⟨rfl, rfl⟩
  | code :: rest =>
    by_cases h : code = Config.respTag
    · subst h
      exact .inr (.inl ⟨rest, rfl, rfl⟩)
    · exact .inr (.inr ⟨code, rest, rfl, h, responseOf_of_code_ne rest hi lo h⟩)

theorem encode_responseOf (payload : List Byte) (hi lo : Byte) :
    encode (responseOf payload hi lo) = .response (responseBytes payload hi lo) := by
  obtain ⟨rfl, h⟩ | ⟨rest, rfl, h⟩ | ⟨code, rest, rfl, -, h⟩ := responseOf_cases payload hi lo <;> rw [h] <;> rfl

/-- A payload that the length byte can announce gives a well-formed response. -/
theorem wellFormed_responseOf {payload : List Byte} (hi lo : Byte) (h : payload.length ≤ 64) :
    WellFormed (responseOf payload hi lo) := by
  obtain ⟨rfl, hr⟩ | ⟨rest, rfl, hr⟩ | ⟨code, rest, rfl, hcode, hr⟩ := responseOf_cases payload hi lo <;> rw [hr]
  · rfl
  · simpa [WellFormed, Instr.wellFormed, Config.maxLen] using h
  · simpa [WellFormed, Instr.wellFormed, Config.maxLen, hcode] using h

/-- The frame around a body's payload and trailer is the frame with that body. -/
theorem responseBytes_of_body {l : Byte} {body : List Byte} (h : body.length = l.toNat + 2) :
    responseBytes (body.take l.toNat) (body.getD l.toNat 0) (body.getD (l.toNat + 1) 0) =
      Config.startMark :: l :: body := by
  rw [responseBytes, ← body_eq_payload_trailer h, List.length_take, Nat.min_eq_left (by omega),
    BitVec.ofNat_toNat, BitVec.setWidth_eq]

/-! ### Decode of encode -/

theorem decode_encode_of_request {i : Instr} {w : Word} (hi : WellFormed i) (h : encode i = .request w) :
    decode (encode i) = .ok i := by
  rw [h]
  exact congrArg Except.ok (decodeRequest_of_encode hi h)

/-- Settles O11, constructor by constructor: a request word by its fields, a frame by its length. -/
theorem decodeOfEncodeIsIdentity : Obligations.DecodeOfEncodeIsIdentity := by
  intro i hi
  cases i with
  | cmdInventoryExt => rw [encode, decode, decodeCommand, if_pos rfl]
  | rspTagNotify payload hi' lo =>
    have hlen : payload.length + 1 ≤ 64 := by simpa [WellFormed, Instr.wellFormed, Config.maxLen] using hi
    exact decodeResponse_responseBytes hi' lo hlen
  | rspEmpty hi' lo => exact decodeResponse_responseBytes (payload := []) hi' lo (by decide)
  | rspOther code rest hi' lo =>
    have hwf : code ≠ Config.respTag ∧ rest.length + 1 ≤ 64 := by
      simpa [WellFormed, Instr.wellFormed, Config.maxLen] using hi
    rw [← responseOf_of_code_ne rest hi' lo hwf.1, encode_responseOf]
    exact decodeResponse_responseBytes hi' lo hwf.2
  | rspOversize l => exact decodeResponse_oversize (of_decide_eq_true hi)
  | _ => exact decode_encode_of_request hi rfl

/-! ### Encode of decode -/

theorem wellFormed_and_encode_of_decodeCommand {bytes : List Byte} {i : Instr} (h : decodeCommand bytes = .ok i) :
    WellFormed i ∧ encode i = .command bytes := by
  unfold decodeCommand at h
  split at h <;> cases h
  next hb => exact ⟨rfl, by rw [hb]; rfl⟩

theorem wellFormed_and_encode_of_decodeResponse {bytes : List Byte} {i : Instr} (h : decodeResponse bytes = .ok i) :
    WellFormed i ∧ encode i = .response bytes := by
  obtain ⟨l, hl, rfl, rfl⟩ | ⟨l, body, hl, hlen, rfl, rfl⟩ := decodeResponse_inv h
  · exact ⟨decide_eq_true hl, rfl⟩
  · exact ⟨wellFormed_responseOf _ _ (by simp; omega), by rw [encode_responseOf, responseBytes_of_body hlen]⟩

/-- Settles O12, domain by domain. -/
theorem encodeOfDecodeIsIdentity : Obligations.EncodeOfDecodeIsIdentity := by
  intro c i h
  cases c with
  | request w =>
    cases h
    exact wellFormed_and_encode_decodeRequest w
  | command bytes => exact wellFormed_and_encode_of_decodeCommand h
  | response bytes => exact wellFormed_and_encode_of_decodeResponse h

/-- Settles O13: of the two shapes of a received message only the rejected length is not a whole frame. -/
theorem responseFrameIsLengthPlusFour : Obligations.ResponseFrameIsLengthPlusFour := by
  intro bytes i h hi
  obtain ⟨l, -, -, rfl⟩ | ⟨l, body, hl, hlen, hbytes, -⟩ := decodeResponse_inv h
  · exact absurd rfl (hi l)
  · exact ⟨l, body, hbytes, hl, hlen⟩

/-- Settles O14: the eight encodings are evaluated. -/
theorem writtenEncodingsDecode : Obligations.WrittenEncodingsDecode := by
  unfold Obligations.WrittenEncodingsDecode
  decide +kernel

end Sys2Proof
end

section
/-! SUPPORT. The decoder's walk over any payload (43_decoder.md): what the flags select, what each field does to the cursor,
what further bytes change, and the settled statements about the walk and the messages it serves. -/

namespace Sys2Proof.Machine

open Sys2Proof.Safety

/-! ### What a flags byte selects -/

@[simp] theorem selected_zero (mask : Byte) : selected 0#8 mask = false := by simp [selected]

theorem selected_or (a b mask : Byte) : selected (a ||| b) mask = (selected a mask || selected b mask) := by
  have h : (a ||| b) &&& mask = a &&& mask ||| b &&& mask := by
    simp only [BitVec.and_comm _ mask, BitVec.and_or_distrib_left]
  rw [Bool.eq_iff_iff, Bool.or_eq_true]
  simp only [selected, h, bne_iff_ne, ne_eq, ← not_and_or]
  exact not_congr BitVec.or_eq_zero_iff

theorem selected_ite (p : Bool) (a mask : Byte) :
    selected (if p then a else 0#8) mask = (p && selected a mask) := by
  cases p <;> simp

/-- Of two single bits one selects the other only if they are the same. -/
theorem selected_of_isOneBit {a b : Byte} (ha : Masks.isOneBit a = true) (hb : Masks.isOneBit b = true) :
    selected a b = decide (a = b) := by
  have hpow : ∀ a : Byte, Masks.isOneBit a = true → a ∈ [1, 2, 4, 8, 16, 32, 64, 128] := by decide +kernel
  have hall : ∀ a ∈ [1, 2, 4, 8, 16, 32, 64, 128], ∀ b ∈ [1, 2, 4, 8, 16, 32, 64, 128],
      selected a b = decide (a = b) := by decide
  exact hall a (hpow a ha) b (hpow b hb)

/-- Rule R8's constraint, read out. -/
theorem admissible_iff (m : Masks) : m.admissible = true ↔
    Masks.isOneBit m.epc = true ∧ Masks.isOneBit m.tid = true ∧ Masks.isOneBit m.rssi = true ∧
    Masks.isOneBit m.devId = true ∧ Masks.isOneBit m.mem = true ∧ m.epc ||| m.tid ||| m.rssi = 0x07 ∧
    m.epc ≠ m.tid ∧ m.epc ≠ m.rssi ∧ m.tid ≠ m.rssi ∧ m.devId &&& 0x07 = 0 ∧ m.mem &&& 0x07 = 0 ∧
    m.devId ≠ m.mem := by
  simp [Masks.admissible, and_assoc]

/-- The flags `0x07` select EPC, TID and RSSI and nothing else, whatever the admissible masks. -/
theorem selected_seven {m : Masks} (h : m.admissible = true) :
    selected 0x07 m.devId = false ∧ selected 0x07 m.epc = true ∧ selected 0x07 m.tid = true ∧
    selected 0x07 m.mem = false ∧ selected 0x07 m.rssi = true := by
  obtain ⟨he, ht, hr, -, -, hor, -, -, -, hd7, hm7, -⟩ := (admissible_iff m).1 h
  refine ⟨?_, ?_, ?_, ?_, ?_⟩
  · simpa [selected, BitVec.and_comm] using hd7
  · simp [← hor, selected_or, selected_of_isOneBit he he]
  · simp [← hor, selected_or, selected_of_isOneBit ht ht]
  · simpa [selected, BitVec.and_comm] using hm7
  · simp [← hor, selected_or, selected_of_isOneBit hr hr]

/-- No field's mask among EPC, TID and RSSI is the device identifier's or the user memory's. -/
theorem masks_nodup {m : Masks} (h : m.admissible = true) : [m.devId, m.epc, m.tid, m.mem, m.rssi].Nodup := by
  obtain ⟨-, -, -, hd, hm, -, het, her, htr, -, -, hdm⟩ := (admissible_iff m).1 h
  obtain ⟨hd7, he7, ht7, hm7, hr7⟩ := selected_seven h
  have apart {a b : Byte} (ha : selected 0x07 a = false) (hb : selected 0x07 b = true) : a ≠ b := by
    rintro rfl
    exact Bool.false_ne_true (ha.symm.trans hb)
  simp only [List.nodup_cons, List.mem_cons, List.not_mem_nil, or_false, not_or, List.nodup_nil, not_false_eq_true,
    and_true]
  exact ⟨⟨apart hd7 he7, apart hd7 ht7, hdm, apart hd7 hr7⟩, ⟨het, (apart hm7 he7).symm, her⟩,
    ⟨(apart hm7 ht7).symm, htr⟩, apart hm7 hr7⟩

/-- The header flags of a built payload select exactly the fields that are present. -/
theorem selected_flags {m : Masks} (f : ResponseFields) (h : m.admissible = true) :
    selected (f.flags m) m.devId = f.devId.isSome ∧ selected (f.flags m) m.epc = f.epc.isSome ∧
    selected (f.flags m) m.tid = f.tid.isSome ∧ selected (f.flags m) m.mem = f.mem.isSome ∧
    selected (f.flags m) m.rssi = f.rssi.isSome := by
  obtain ⟨he, ht, hr, hd, hm, -⟩ := (admissible_iff m).1 h
  have hne := masks_nodup h
  have hne' := List.nodup_reverse.2 hne
  simp only [List.reverse_cons, List.reverse_nil, List.nil_append, List.cons_append, List.nodup_cons, List.mem_cons,
    List.not_mem_nil, or_false, not_or] at hne hne'
  simp [ResponseFields.flags, selected_or, selected_ite, selected_of_isOneBit, *]

/-! ### The round trip of a built payload -/

/-- A length-prefixed field as its sender builds it is taken whole. -/
theorem fieldPrefixed_built {o : Option (List Byte)} (emitted : List Byte → List Record) (r : List Byte)
    (rs : List Record) (h : ∀ s ∈ o, s.length < 256) :
    fieldPrefixed o.isSome emitted { rest := o.elim [] prefixedBytes ++ r, emitted := rs } =
      .ok { rest := r, emitted := rs ++ o.elim [] emitted } := by
  cases o with
  | none => simp [fieldPrefixed]
  | some s =>
    have hlen : s.length = (BitVec.ofNat 8 s.length).toNat := by
      have := h s rfl
      simp
      omega
    simp [fieldPrefixed, prefixedBytes, takePrefixed_cons hlen]

theorem fieldDevId_built {m : Masks} {flags : Byte} {o : Option (Byte × Byte × Byte × Byte)} (r : List Byte)
    (rs : List Record) (h : selected flags m.devId = o.isSome) :
    fieldDevId m flags { rest := (o.elim [] fun (a, b, c, d) => [a, b, c, d]) ++ r, emitted := rs } =
      .ok { rest := r, emitted := rs } := by
  rw [fieldDevId_eq, h]
  cases o <;> simp

theorem fieldRssi_built {m : Masks} {flags : Byte} {o : Option (Byte × Byte)} (rs : List Record)
    (h : selected flags m.rssi = o.isSome) :
    fieldRssi m flags { rest := o.elim [] fun (hi, lo) => [hi, lo], emitted := rs } =
      .ok { rest := [], emitted := rs ++ o.elim [] fun (hi, lo) => [.rssi (rssiRaw hi lo)] } := by
  rw [fieldRssi_eq, h]
  cases o <;> simp

/-- No field is longer than the bytes of all fields. -/
theorem length_field_le_bytes (f : ResponseFields) {s : List Byte}
    (h : s ∈ f.epc ∨ s ∈ f.tid ∨ s ∈ f.mem) : s.length ≤ f.bytes.length := by
  simp only [ResponseFields.bytes, List.length_append]
  rcases h with h | h | h <;> simp only [Option.mem_def] at h <;> simp [h, prefixedBytes] <;> omega

theorem walkFields_built {m : Masks} {f : ResponseFields} (rs : List Record) (hm : m.admissible = true)
    (hf : f.bytes.length < 256) :
    walkFields m (f.flags m) { rest := f.bytes, emitted := rs } = .ok { rest := [], emitted := rs ++ f.records } := by
  obtain ⟨hd, he, ht, hmem, hr⟩ := selected_flags f hm
  have hlen {s : List Byte} (h : s ∈ f.epc ∨ s ∈ f.tid ∨ s ∈ f.mem) : s.length < 256 :=
    (length_field_le_bytes f h).trans_lt hf
  simp only [walkFields_eq_bind, fieldEpc_eq, fieldTid_eq, fieldMem_eq, he, ht, hmem, ResponseFields.bytes,
    List.append_assoc, fieldDevId_built _ _ hd, Except.bind]
  rw [fieldPrefixed_built _ _ _ fun s h => hlen (.inl h)]
  simp only
  rw [fieldPrefixed_built _ _ _ fun s h => hlen (.inr (.inl h))]
  simp only
  rw [fieldPrefixed_built _ _ _ fun s h => hlen (.inr (.inr h))]
  simp only
  rw [fieldRssi_built _ hr]
  cases f.mem <;> simp [ResponseFields.records]

/-! ### What a payload decodes to, by its walk -/

/-- The cursor where a walk ended, whether it stopped there or went through. -/
def lastCursor : Except Cursor Cursor → Cursor
  | .ok c => c
  | .error c => c

theorem records_decodeTagPayload (m : Masks) (flags : Byte) (p : List Byte) :
    (decodeTagPayload m (flags :: p)).records =
      (lastCursor (walkFields m flags { rest := p, emitted := [.sep] })).emitted := by
  simp only [decodeTagPayload]
  cases walkFields m flags { rest := p, emitted := [.sep] } <;> rfl

/-- A payload decodes DECODED exactly when its walk goes through. -/
theorem decodeTagPayload_decoded_iff {m : Masks} {flags : Byte} {p : List Byte} {rs : List Record} {k : Nat} :
    decodeTagPayload m (flags :: p) = { outcome := .decoded, records := rs, left := k } ↔
      ∃ c, walkFields m flags { rest := p, emitted := [.sep] } = .ok c ∧ c.emitted = rs ∧ c.rest.length = k := by
  simp only [decodeTagPayload]
  cases walkFields m flags { rest := p, emitted := [.sep] } <;> simp

theorem decodeTagPayload_outcome (m : Masks) (p : List Byte) :
    (decodeTagPayload m p).outcome = .decoded ∨ (decodeTagPayload m p).outcome = .aborted := by
  unfold decodeTagPayload
  repeat' split
  all_goals simp

/-- Settles O40: field after field the built bytes are taken whole, the flags selecting exactly the fields present. -/
theorem decodeOfBuiltPayloadIsItsFields : Obligations.DecodeOfBuiltPayloadIsItsFields := by
  intro m f hm hf
  have hlen : f.bytes.length < 256 := by
    simp only [Config.maxLen] at hf
    omega
  exact decodeTagPayload_decoded_iff.2 ⟨_, walkFields_built [.sep] hm hlen, rfl, rfl⟩

/-! ### The masks matter through what they select only -/

theorem walkFields_congr {m n : Masks} {flags flags' : Byte} (hd : selected flags m.devId = selected flags' n.devId)
    (he : selected flags m.epc = selected flags' n.epc) (ht : selected flags m.tid = selected flags' n.tid)
    (hmem : selected flags m.mem = selected flags' n.mem) (hr : selected flags m.rssi = selected flags' n.rssi) :
    walkFields m flags = walkFields n flags' := by
  funext c
  simp only [walkFields_eq_bind, fieldDevId_eq, fieldEpc_eq, fieldTid_eq, fieldMem_eq, fieldRssi_eq, hd, he, ht, hmem, hr]

theorem walkFields_zero (m : Masks) (c : Cursor) : walkFields m 0x00 c = .ok c := by
  simp [walkFields_eq_bind, fieldDevId_eq, fieldEpc_eq, fieldTid_eq, fieldMem_eq, fieldRssi_eq, fieldPrefixed,
    Except.bind]

/-- Settles O41: `0x07` selects the same fields under all admissible masks, and `0x00` selects none under any. -/
theorem flagsSevenAndZeroNeedNoMaskChoice : Obligations.FlagsSevenAndZeroNeedNoMaskChoice := by
  intro m n p hm hn
  obtain ⟨hd, he, ht, hmem, hr⟩ := selected_seven hm
  obtain ⟨hd', he', ht', hmem', hr'⟩ := selected_seven hn
  constructor
  · have hwalk : walkFields m 0x07 = walkFields n 0x07 :=
      walkFields_congr (hd.trans hd'.symm) (he.trans he'.symm) (ht.trans ht'.symm) (hmem.trans hmem'.symm)
        (hr.trans hr'.symm)
    simp only [decodeTagPayload, hwalk]
  · exact decodeTagPayload_decoded_iff.2 ⟨_, walkFields_zero m _, rfl, rfl⟩

/-! ### A payload continued by further bytes -/

/-- The cursor with further bytes after those it has not consumed. -/
def Cursor.extend (c : Cursor) (x : List Byte) : Cursor := { c with rest := c.rest ++ x }

@[simp] theorem Cursor.extend_emitted (c : Cursor) (x : List Byte) : (c.extend x).emitted = c.emitted := rfl

/-- What one field of the walk, and so the whole walk, does with what is emitted and with further bytes: it only adds to the
records; where it goes through it does so with further bytes too; and where it stops, further bytes add records only. -/
structure WalkLaws (f : Cursor → Except Cursor Cursor) : Prop where
  grows (c : Cursor) : ∃ more, (lastCursor (f c)).emitted = c.emitted ++ more
  extend {c c' : Cursor} (x : List Byte) (h : f c = .ok c') : f (c.extend x) = .ok (c'.extend x)
  cut {c e : Cursor} (x : List Byte) (h : f c = .error e) :
    ∃ more, (lastCursor (f (c.extend x))).emitted = e.emitted ++ more

/-- For a field that stops where it stood, the law of a cut payload is that the records only grow. -/
theorem WalkLaws.of_stops {f : Cursor → Except Cursor Cursor} (hstop : ∀ {c e}, f c = .error e → e = c)
    (hgrow : ∀ {c c'}, f c = .ok c' → ∃ more, c'.emitted = c.emitted ++ more)
    (hext : ∀ {c c'} (x), f c = .ok c' → f (c.extend x) = .ok (c'.extend x)) : WalkLaws f := by
  have grows (c : Cursor) : ∃ more, (lastCursor (f c)).emitted = c.emitted ++ more := by
    cases h : f c with
    | ok c' => exact hgrow h
    | error e => exact ⟨[], by simp [lastCursor, hstop h]⟩
  exact ⟨grows, hext, fun x h => hstop h ▸ grows _⟩

/-- The laws hold of two fields in sequence. -/
theorem WalkLaws.bind {f g : Cursor → Except Cursor Cursor} (hf : WalkLaws f) (hg : WalkLaws g) :
    WalkLaws fun c => (f c).bind g := by
  have after (c : Cursor) : ∃ more, (lastCursor ((f c).bind g)).emitted = (lastCursor (f c)).emitted ++ more := by
    cases f c with
    | ok c' => exact hg.grows c'
    | error e => exact ⟨[], (List.append_nil _).symm⟩
  constructor
  · intro c
    obtain ⟨more, h⟩ := hf.grows c
    obtain ⟨more', h'⟩ := after c
    exact ⟨more ++ more', by rw [h', h, List.append_assoc]⟩
  · intro c c' x h
    cases hfc : f c with
    | ok c₁ =>
      rw [hfc] at h
      rw [hf.extend x hfc]
      exact hg.extend x h
    | error e => rw [hfc] at h; cases h
  · intro c e x h
    cases hfc : f c with
    | ok c₁ =>
      rw [hfc] at h
      rw [hf.extend x hfc]
      exact hg.cut x h
    | error e₁ =>
      rw [hfc] at h
      cases h
      obtain ⟨more, h⟩ := hf.cut x hfc
      obtain ⟨more', h'⟩ := after (c.extend x)
      exact ⟨more ++ more', by rw [h', h, List.append_assoc]⟩

theorem fieldPrefixed_error {sel : Bool} {emitted : List Byte → List Record} {c e : Cursor}
    (h : fieldPrefixed sel emitted c = .error e) : e = c := by
  unfold fieldPrefixed at h
  repeat' split at h
  all_goals cases h
  rfl

/-- A length-prefixed field that goes through, or is not selected. -/
theorem fieldPrefixed_ok {sel : Bool} {emitted : List Byte → List Record} {c c' : Cursor}
    (h : fieldPrefixed sel emitted c = .ok c') :
    (sel = false ∧ c' = c) ∨ (sel = true ∧ ∃ bytes r, takePrefixed c = some (bytes, r) ∧
      c' = { r with emitted := c.emitted ++ emitted bytes }) := by
  unfold fieldPrefixed at h
  repeat' split at h
  all_goals cases h
  · next hs _ bytes r ht => exact .inr ⟨hs, bytes, r, ht, by rw [takePrefixed_emitted ht]⟩
  · next hs => exact .inl ⟨Bool.eq_false_iff.2 hs, rfl⟩

theorem walkLaws_fieldPrefixed (sel : Bool) (emitted : List Byte → List Record) :
    WalkLaws (fieldPrefixed sel emitted) := by
  refine .of_stops fieldPrefixed_error (fun {c c'} h => ?_) (fun {c c'} x h => ?_)
  · obtain ⟨-, rfl⟩ | ⟨-, bytes, r, -, rfl⟩ := fieldPrefixed_ok h
    · exact ⟨[], (List.append_nil _).symm⟩
    · exact ⟨emitted bytes, rfl⟩
  · obtain ⟨rfl, rfl⟩ | ⟨rfl, bytes, r, ht, rfl⟩ := fieldPrefixed_ok h
    · rfl
    · simp [fieldPrefixed, Cursor.extend, takePrefixed_append x ht, takePrefixed_emitted ht]

theorem walkLaws_fieldDevId (m : Masks) (flags : Byte) : WalkLaws (fieldDevId m flags) := by
  refine .of_stops fieldDevId_error (fun {c c'} h => ⟨[], ?_⟩) (fun {c c'} x h => ?_)
  all_goals
    rw [fieldDevId_eq] at h
    repeat' split at h
    all_goals cases h
  · simp
  · simp
  · next hs hl => simp [fieldDevId_eq, hs, Cursor.extend, List.drop_append_of_le_length hl]; omega
  · next hs => simp [fieldDevId_eq, hs]

/-- The RSSI field that goes through, or is not selected. -/
theorem fieldRssi_ok {m : Masks} {flags : Byte} {c c' : Cursor} (h : fieldRssi m flags c = .ok c') :
    (selected flags m.rssi = false ∧ c' = c) ∨ (selected flags m.rssi = true ∧ ∃ hi lo r, c.rest = hi :: lo :: r ∧
      c' = { rest := r, emitted := c.emitted ++ [.rssi (rssiRaw hi lo)] }) := by
  rw [fieldRssi_eq] at h
  repeat' split at h
  all_goals cases h
  · next hs _ hi lo r hr => exact .inr ⟨hs, hi, lo, r, hr, rfl⟩
  · next hs => exact .inl ⟨Bool.eq_false_iff.2 hs, rfl⟩

theorem walkLaws_fieldRssi (m : Masks) (flags : Byte) : WalkLaws (fieldRssi m flags) := by
  refine .of_stops fieldRssi_error (fun {c c'} h => ?_) (fun {c c'} x h => ?_)
  · obtain ⟨-, rfl⟩ | ⟨-, hi, lo, r, -, rfl⟩ := fieldRssi_ok h
    · exact ⟨[], (List.append_nil _).symm⟩
    · exact ⟨_, rfl⟩
  · obtain ⟨hs, rfl⟩ | ⟨hs, hi, lo, r, hr, rfl⟩ := fieldRssi_ok h
    · simp [fieldRssi_eq, hs]
    · simp [fieldRssi_eq, hs, Cursor.extend, hr]

theorem walkLaws_walkFields (m : Masks) (flags : Byte) : WalkLaws (walkFields m flags) := by
  rw [funext (walkFields_eq_bind m flags), fieldEpc_eq, fieldTid_eq, fieldMem_eq]
  exact (walkLaws_fieldDevId m flags).bind <| (walkLaws_fieldPrefixed _ _).bind <|
    (walkLaws_fieldPrefixed _ _).bind <| (walkLaws_fieldPrefixed _ _).bind <| walkLaws_fieldRssi m flags

/-- Settles O42: a walk that goes through does so with further bytes, which stay after those left over. -/
theorem trailingPayloadIsIgnored : Obligations.TrailingPayloadIsIgnored := by
  intro m p x rs k h
  match p with
  | [] => simp [decodeTagPayload] at h
  | flags :: p =>
    obtain ⟨c, hwalk, rfl, rfl⟩ := decodeTagPayload_decoded_iff.1 h
    exact decodeTagPayload_decoded_iff.2
      ⟨c.extend x, (walkLaws_walkFields m flags).extend x hwalk, rfl, by simp [Cursor.extend]⟩

/-- Settles O43: with the flags byte there the walk over the longer payload emits what the shorter one's did and then more. -/
theorem cutPayloadEmitsAnInitialPart : Obligations.CutPayloadEmitsAnInitialPart := by
  intro m p x
  match p with
  | [] => exact ⟨_, (List.nil_append _).symm⟩
  | flags :: p =>
    rw [List.cons_append, records_decodeTagPayload, records_decodeTagPayload]
    cases hwalk : walkFields m flags { rest := p, emitted := [.sep] } with
    | ok c => exact ⟨[], by
        rw [show walkFields m flags { rest := p ++ x, emitted := [.sep] } = .ok (c.extend x) from
          (walkLaws_walkFields m flags).extend x hwalk]
        exact (List.append_nil _).symm⟩
    | error e => exact (walkLaws_walkFields m flags).cut x hwalk

/-! ### The order of the records -/

/-- Whatever the cursor, the field adds records as `S` says, which is told whether the field goes through. -/
def Reports (S : Bool → List Record → Prop) (f : Cursor → Except Cursor Cursor) : Prop :=
  ∀ c, ∃ rs, (lastCursor (f c)).emitted = c.emitted ++ rs ∧ S (f c).toBool rs

/-- No record. -/
def noRecord (_through : Bool) (rs : List Record) : Prop := rs = []

/-- At most one record, of a field that is selected; and one for a selected field that goes through. -/
def optionalRecord {α : Type} (sel : Bool) (emitted : α → Record) (through : Bool) (rs : List Record) : Prop :=
  ∃ o : Option α, rs = o.toList.map emitted ∧ (o.isSome = true → sel = true) ∧ (through = true → o.isSome = sel)

/-- The records of a walk that stops in its first part, or those of both parts. -/
def recordsThen (S T : Bool → List Record → Prop) (through : Bool) (rs : List Record) : Prop :=
  (through = false ∧ S false rs) ∨ ∃ rs₁ rs₂, S true rs₁ ∧ T through rs₂ ∧ rs = rs₁ ++ rs₂

theorem Reports.bind {S T : Bool → List Record → Prop} {f g : Cursor → Except Cursor Cursor} (hf : Reports S f)
    (hg : Reports T g) : Reports (recordsThen S T) fun c => (f c).bind g := by
  intro c
  show ∃ rs, (lastCursor ((f c).bind g)).emitted = _ ∧ recordsThen S T ((f c).bind g).toBool rs
  obtain ⟨rs, hrs, hS⟩ := hf c
  cases h : f c with
  | error e =>
    rw [h] at hrs hS
    exact ⟨rs, hrs, .inl ⟨rfl, hS⟩⟩
  | ok c' =>
    rw [h] at hrs hS
    obtain ⟨rs', hrs', hT⟩ := hg c'
    refine ⟨rs ++ rs', ?_, .inr ⟨rs, rs', hS, hT, rfl⟩⟩
    rw [← List.append_assoc, ← hrs]
    exact hrs'

/-- A field that stops where it stood and goes through without a record. -/
theorem reports_noRecord {f : Cursor → Except Cursor Cursor} (hstop : ∀ {c e}, f c = .error e → e = c)
    (hok : ∀ {c c'}, f c = .ok c' → c'.emitted = c.emitted) : Reports noRecord f := by
  intro c
  refine ⟨[], ?_, rfl⟩
  cases h : f c with
  | error e => simp [lastCursor, hstop h]
  | ok c' => simp [lastCursor, hok h]

/-- A field that stops where it stood, and goes through with one record exactly if it is selected. -/
theorem reports_optionalRecord {α : Type} {sel : Bool} {emitted : α → Record} {f : Cursor → Except Cursor Cursor}
    (hstop : ∀ {c e}, f c = .error e → e = c)
    (hok : ∀ {c c'}, f c = .ok c' →
      (sel = false ∧ c' = c) ∨ (sel = true ∧ ∃ a, c'.emitted = c.emitted ++ [emitted a])) :
    Reports (optionalRecord sel emitted) f := by
  intro c
  cases h : f c with
  | error e => exact ⟨[], by simp [lastCursor, hstop h], none, rfl, by simp, by simp [Except.toBool]⟩
  | ok c' =>
    obtain ⟨rfl, rfl⟩ | ⟨rfl, a, ha⟩ := hok h
    · exact ⟨[], (List.append_nil _).symm, none, rfl, by simp, fun _ => rfl⟩
    · exact ⟨[emitted a], ha, some a, rfl, fun _ => rfl, fun _ => rfl⟩

theorem reports_fieldDevId (m : Masks) (flags : Byte) : Reports noRecord (fieldDevId m flags) := by
  refine reports_noRecord fieldDevId_error fun {c c'} h => ?_
  rw [fieldDevId_eq] at h
  repeat' split at h
  all_goals cases h
  all_goals rfl

theorem reports_fieldMem (m : Masks) (flags : Byte) : Reports noRecord (fieldMem m flags) := by
  refine reports_noRecord fieldMem_error fun {c c'} h => ?_
  rw [fieldMem_eq] at h
  obtain ⟨-, rfl⟩ | ⟨-, bytes, r, -, rfl⟩ := fieldPrefixed_ok h
  · rfl
  · exact List.append_nil _

theorem reports_fieldPrefixed (sel : Bool) (emitted : List Byte → Record) :
    Reports (optionalRecord sel emitted) (fieldPrefixed sel fun s => [emitted s]) := by
  refine reports_optionalRecord fieldPrefixed_error fun {c c'} h => ?_
  obtain h | ⟨hs, bytes, r, -, rfl⟩ := fieldPrefixed_ok h
  · exact .inl h
  · exact .inr ⟨hs, bytes, rfl⟩

theorem reports_fieldRssi (m : Masks) (flags : Byte) :
    Reports (optionalRecord (selected flags m.rssi) .rssi) (fieldRssi m flags) := by
  refine reports_optionalRecord fieldRssi_error fun {c c'} h => ?_
  obtain h | ⟨hs, hi, lo, r, -, rfl⟩ := fieldRssi_ok h
  · exact .inl h
  · exact .inr ⟨hs, rssiRaw hi lo, rfl⟩

/-- The records of a walk: at most one EPC, one TID and one RSSI, in that order. -/
def walkRecords (m : Masks) (flags : Byte) (through : Bool) (rs : List Record) : Prop :=
  ∃ (e t : Option (List Byte)) (r : Option Word),
    rs = e.toList.map .epc ++ t.toList.map .tid ++ r.toList.map .rssi ∧
    (e.isSome = true → selected flags m.epc = true) ∧ (t.isSome = true → selected flags m.tid = true) ∧
    (r.isSome = true → selected flags m.rssi = true) ∧
    (through = true →
      e.isSome = selected flags m.epc ∧ t.isSome = selected flags m.tid ∧ r.isSome = selected flags m.rssi)

/-- The records of the five fields in sequence, by the field at which the walk stops, if at any. -/
theorem walkRecords_of_fields {m : Masks} {flags : Byte} {through : Bool} {rs : List Record}
    (h : recordsThen noRecord (recordsThen (optionalRecord (selected flags m.epc) .epc)
      (recordsThen (optionalRecord (selected flags m.tid) .tid)
        (recordsThen noRecord (optionalRecord (selected flags m.rssi) .rssi)))) through rs) :
    walkRecords m flags through rs := by
  obtain ⟨rfl, rfl⟩ | ⟨_, _, rfl, h, rfl⟩ := h
  · exact ⟨none, none, none, rfl, by simp⟩
  obtain ⟨rfl, e, rfl, he, -⟩ | ⟨_, _, ⟨e, rfl, he, he'⟩, h, rfl⟩ := h
  · exact ⟨e, none, none, by simp, he, by simp⟩
  obtain ⟨rfl, t, rfl, ht, -⟩ | ⟨_, _, ⟨t, rfl, ht, ht'⟩, h, rfl⟩ := h
  · exact ⟨e, t, none, by simp, he, ht, by simp⟩
  obtain ⟨rfl, rfl⟩ | ⟨_, _, rfl, ⟨r, rfl, hr, hr'⟩, rfl⟩ := h
  · exact ⟨e, t, none, by simp, he, ht, by simp⟩
  · exact ⟨e, t, r, by simp, he, ht, hr, fun h => ⟨he' rfl, ht' rfl, hr' h⟩⟩

theorem reports_walkFields (m : Masks) (flags : Byte) : Reports (walkRecords m flags) (walkFields m flags) := by
  rw [funext (walkFields_eq_bind m flags), fieldEpc_eq, fieldTid_eq]
  have hall := (reports_fieldDevId m flags).bind <| (reports_fieldPrefixed (selected flags m.epc) .epc).bind <|
    (reports_fieldPrefixed (selected flags m.tid) .tid).bind <|
    (reports_fieldMem m flags).bind <| reports_fieldRssi m flags
  intro c
  obtain ⟨rs, hrs, h⟩ := hall c
  exact ⟨rs, hrs, walkRecords_of_fields h⟩

/-- Settles O44: after the separator come the records of the walk, which goes through exactly if the outcome is DECODED. -/
theorem recordsComeInFixedOrder : Obligations.RecordsComeInFixedOrder := by
  intro m p
  match p with
  | [] => exact .inl ⟨rfl, rfl⟩
  | flags :: q =>
    obtain ⟨rs, hrs, e, t, r, rfl, he, ht, hr, hall⟩ := reports_walkFields m flags { rest := q, emitted := [.sep] }
    refine .inr ⟨flags, q, e, t, r, rfl, (records_decodeTagPayload m flags q).trans hrs, he, ht, hr, fun h => hall ?_⟩
    revert h
    simp only [decodeTagPayload]
    cases walkFields m flags { rest := q, emitted := [.sep] } <;> simp [Except.toBool]

/-! ### The RSSI value -/

/-- Settles O45: sixteen bits read as two's complement, the high byte weighed by 256. -/
theorem rssiIsBigEndianSigned : Obligations.RssiIsBigEndianSigned := by
  intro hi lo
  have hnat : (rssiRaw hi lo).toNat = 256 * hi.toNat + lo.toNat := toNat_append_eq_mul_add hi lo
  rw [BitVec.toInt_eq_toNat_cond, hnat]
  split <;> split <;> omega

/-! ### The messages in `DECODE` -/

/-- Settles O35: in `DECODE` the message is taken, and its effect is the report of its walk. -/
theorem tagNotifyReportsAndFinishes : Obligations.TagNotifyReportsAndFinishes := fun _ payload _ _ h =>
  ⟨congrArg Host.Outcome.next (State.takenIn_of_phase _ h), decodeTagPayload_outcome Config.masks payload⟩

/-- Settles O36: in `DECODE` both messages are taken, and their effect is to finish. -/
theorem ignoredResponsesFinishIgnored : Obligations.IgnoredResponsesFinishIgnored := fun _ h =>
  ⟨fun _ _ => congrArg Host.Outcome.next (State.takenIn_of_phase _ h),
    fun _ _ _ _ => congrArg Host.Outcome.next (State.takenIn_of_phase _ h)⟩

/-! ### What a decode depends on -/

/-- What is reported depends on the declared payload: the trailer is not read. -/
theorem frameDecoded_congr {s t : State} (hl : s.len = t.len) (hfb : fbAgree s.fb t.fb 2 (s.len.toNat + 2)) :
    frameDecoded s = frameDecoded t := by
  have hpayload : memSlice s.fb 2 s.len.toNat = memSlice t.fb 2 t.len.toNat := by
    rw [← hl]
    exact memSlice_congr fun i h1 h2 => hfb i h1 (by omega)
  unfold frameDecoded frameInstr
  rw [hpayload]
  match memSlice t.fb 2 t.len.toNat with
  | [] => rfl
  | code :: rest =>
    by_cases hcode : code = Config.respTag
    · subst hcode
      rfl
    · rw [responseOf_of_code_ne _ _ _ hcode, responseOf_of_code_ne _ _ _ hcode]

/-- Settles O39: both steps report their frame, and the frames agree on the declared payload. -/
theorem decodeDependsOnDeclaredPayloadOnly : Obligations.DecodeDependsOnDeclaredPayloadOnly := by
  intro s t hs ht hps hpt hl hle hfb
  have hsame : frameDecoded (turnTaken t) = frameDecoded (turnTaken s) :=
    (frameDecoded_congr (s := turnTaken s) (t := turnTaken t) hl hfb).symm
  refine ⟨_, _, (frameDecoded (turnTaken s)).records, step_decode hs hps hle, step_decode ht hpt (hl ▸ hle), ?_, rfl, ?_⟩
  · rw [hsame]; rfl
  · rw [hsame]; rfl

end Sys2Proof.Machine
end

section
/-! SUPPORT. One step of the machine (10_state.md, 44_scan_cycle.md): what the other agents' moves leave unchanged, what the
block's step runs in each phase, which step can change what, and the settled statements about single steps. -/

namespace Sys2Proof.Machine

open Sys2Proof.Safety

/-! ### The moves of the other agents -/

/-- No move but a reset touches the block: the environment's and the host's own fields only can change. -/
theorem envMove_frame {e : Event} (s : State) (h : e ≠ .hostReset) : ∃ rxq now reqs reads loop,
    envMove e s = { s with rxq := rxq, now := now, reqs := reqs, reads := reads, loop := loop } := by
  cases e with
  | hostReset => exact absurd rfl h
  | hostLoop clock =>
    simp only [envMove, State.hostLoop]
    repeat' split
    all_goals exact ⟨_, _, _, _, _, rfl⟩
  | _ => exact ⟨_, _, _, _, _, rfl⟩

/-- What a step can be: the block's, a reset, or a move that leaves the block's own fields as they are. -/
theorem step_next_cases {s t : State} (h : step s = .next t) :
    (blockTurn s = true ∧ blockStep (turnTaken s) = .next t) ∨
    (∃ es, s.schedule = .hostReset :: es ∧ t = ({ s with schedule := es } : State).resetBlock) ∨
    (blockTurn s = false ∧ ∃ es rxq now reqs reads loop,
      t = { s with schedule := es, rxq := rxq, now := now, reqs := reqs, reads := reads, loop := loop }) := by
  obtain ⟨hturn, hstep⟩ | ⟨hturn, e, es, hsched, -, hstep⟩ := step_cases s
  · exact .inl ⟨hturn, hstep ▸ h⟩
  · obtain rfl : envMove e { s with schedule := es } = t := by
      rw [hstep] at h
      exact Host.Outcome.next.inj h
    by_cases he : e = .hostReset
    · subst he
      exact .inr (.inl ⟨es, hsched, rfl⟩)
    · obtain ⟨rxq, now, reqs, reads, loop, hmove⟩ := envMove_frame { s with schedule := es } he
      exact .inr (.inr ⟨hturn, es, rxq, now, reqs, reads, loop, hmove⟩)

theorem step_rxByte {s : State} {b : Byte} {es : List Event} (h : s.schedule = .rxByte b :: es) :
    step s = .next { s with schedule := es, rxq := s.rxq ++ [b] } :=
  step_of_schedule h (by simp)

theorem step_tick {s : State} {d : Millis} {es : List Event} (h : s.schedule = .tick d :: es) :
    step s = .next { s with schedule := es, now := s.now + d } :=
  step_of_schedule h (by simp)

/-- Settles O58: each move is the event's own update of the state with the event used up. -/
theorem environmentMovesTouchTheirOwn : Obligations.EnvironmentMovesTouchTheirOwn := fun _ _ =>
  ⟨fun _ => step_rxByte, fun _ => step_tick, fun _ h => step_of_schedule h (by simp),
    fun _ h => step_of_schedule h (by simp)⟩

theorem State.ready_iff (s : State) : s.ready = true ↔ s.phase = .idle := beq_iff_eq

/-- Settles O59: the look of the loop, by the place where it stands. -/
theorem hostLoopWaitsForReadyAndIdleDelay : Obligations.HostLoopWaitsForReadyAndIdleDelay := by
  intro s clock es h
  have hstep : step s = .next (({ s with schedule := es } : State).hostLoop clock) := step_of_schedule h (by simp)
  refine ⟨fun hl => ?_, fun hl => ?_, fun since hl => ?_⟩ <;>
    simp only [hstep, State.hostLoop, hl, State.ready_iff, Config.idleMs]
  · rfl
  · split
    · rfl
    · cases s
      simp_all
  · split <;> rfl

/-! ### The instruction a step runs -/

theorem step_idle_cons {s : State} {w : Word} {r : List Word} (ht : blockTurn s = true) (hp : s.phase = .idle)
    (hr : s.reqs = w :: r) : step s = exec (decodeRequest w) { turnTaken s with reqs := r } :=
  (step_of_blockTurn ht).trans (blockStep_idle_cons hp hr)

/-- Settles O1: the word on the port is fetched in `IDLE`, and nothing without one. -/
theorem stepRunsRequestOnPort : Obligations.StepRunsRequestOnPort :=
  ⟨fun _ _ _ => step_idle_cons,
    fun _ ht hp hr => (step_of_blockTurn ht).trans (blockStep_idle_nil hp hr)⟩

theorem blockStep_send_of_decode {s : State} {i : Instr} (hp : s.phase = .send)
    (h : decode (.command s.cmd.bytes) = .ok i) : blockStep s = exec i s := by
  have h' : decodeCommand s.cmd.bytes = .ok i := h
  simp only [blockStep, fetch, hp, fetchSend, h']

/-- The bytes of a frame in `FB`, its length byte at index 1. -/
theorem memSlice_frame {s : State} (h : memRead s.fb 1 = s.len) :
    memSlice s.fb 0 (s.len.toNat + 4) = memRead s.fb 0 :: s.len :: memSlice s.fb 2 (s.len.toNat + 2) := by
  rw [memSlice_succ, memSlice_succ, h]

/-- The instruction the decode fetches is the one that the frame's bytes decode to. -/
theorem frameInstr_of_decode {s : State} {i : Instr} (hl : memRead s.fb 1 = s.len)
    (h : decodeResponse (memSlice s.fb 0 (s.len.toNat + 4)) = .ok i) : s.len.toNat ≤ 64 ∧ frameInstr s = i := by
  obtain ⟨l, -, hbytes, -⟩ | ⟨l, body, hle, -, hbytes, rfl⟩ := decodeResponse_inv h
  · have := congrArg List.length hbytes
    simp at this
  · rw [memSlice_frame hl] at hbytes
    simp only [List.cons.injEq] at hbytes
    obtain ⟨-, rfl, rfl⟩ := hbytes
    refine ⟨hle, ?_⟩
    rw [frameInstr, take_memSlice _ _ (by omega)]
    simp [memSlice, Nat.add_comm 2]

/-- Settles O2: each of the three phases fetches the message that the bytes decode to. -/
theorem stepRunsWireMessages : Obligations.StepRunsWireMessages := by
  refine ⟨fun s i ht hp h => ?_, fun s i ht hp hl h => ?_, fun s i b r ht hp hw hr h => ?_⟩
  · exact (step_of_blockTurn ht).trans (blockStep_send_of_decode hp h)
  · obtain ⟨hle, rfl⟩ := frameInstr_of_decode hl h
    exact (step_of_blockTurn ht).trans (blockStep_decode hp hle)
  · obtain ⟨l, hl, hbytes, rfl⟩ | ⟨l, body, -, hlen, hbytes, -⟩ := decodeResponse_inv h
    · simp only [List.cons.injEq, and_true] at hbytes
      obtain ⟨-, rfl⟩ := hbytes
      exact step_len_oversize ht hp hw hr hl
    · simp only [List.cons.injEq] at hbytes
      obtain ⟨-, -, rfl⟩ := hbytes
      simp at hlen

/-- Settles O3: every meaning is guarded by the phase that takes it. -/
theorem instrTurnedAwayOutsideItsPhase : Obligations.InstrTurnedAwayOutsideItsPhase := by
  intro i s h
  cases i <;> exact congrArg Host.Outcome.next (State.takenIn_of_ne _ h)

/-- Settles O22: in `SEND` the message is taken, and the frame it sends is the six bytes of the rule. -/
theorem commandFrameIsSent : Obligations.CommandFrameIsSent := by
  intro s h
  have hbytes : commandFrame.bytes = [0xBB, 0x02, 0x21, 0x0C, 0x16, 0xAB] := by rw [commandFrame_eq]; rfl
  rw [← hbytes]
  exact congrArg Host.Outcome.next (State.takenIn_of_phase _ h)

/-- Settles O30: in `LEN` the message is taken. -/
theorem oversizeMessageReturnsToHunt : Obligations.OversizeMessageReturnsToHunt :=
  fun _ l h => exec_rspOversize_of_len l h

/-! ### The reader's other steps -/

/-- Settles O26: the poll of an open window finds no byte. -/
theorem emptyPollChangesNothing : Obligations.EmptyPollChangesNothing := fun s ht hp hw hr =>
  (step_of_blockTurn ht).trans (blockStep_reader_nil hp ((windowOpen_iff s).2 hw) hr)

theorem step_body_cons {s : State} {b : Byte} {r : List Byte} (ht : blockTurn s = true) (hp : s.phase = .body)
    (hw : s.windowOpen = true) (hr : s.rxq = b :: r) (hi : s.idx.toNat < 68) :
    step s = .next { turnTaken s with
      rxq := r, fb := memWrite s.fb s.idx.toNat b, idx := s.idx + 1,
      phase := if s.idx.toNat + 1 = s.len.toNat + 4 then .decode else .body } :=
  (step_of_blockTurn ht).trans (blockStep_body_cons hp hw hr hi)

/-- Settles O31: below 68 the index does not wrap. -/
theorem bodyByteIsStored : Obligations.BodyByteIsStored := fun s _ _ ht hp hw hr hi =>
  step_body_cons ht hp ((windowOpen_iff s).2 hw) hr hi

/-! ### Which step changes what -/

/-- What taking a request leaves alone, and what it can do to the phase. -/
theorem exec_request_frame {w : Word} {s t : State} (hp : s.phase = .idle) (h : exec (decodeRequest w) s = .next t) :
    t.txs = s.txs ∧ t.sink = s.sink ∧ t.fb = s.fb ∧ t.idx = s.idx ∧
    (t.phase = .idle ∨ (decodeRequest w = .scan ∧ t.phase = .drain)) := by
  obtain ⟨-, rfl⟩ | ⟨b, -, rfl⟩ | ⟨-, rfl⟩ | ⟨-, rfl⟩ | ⟨hw, rfl⟩ | ⟨d, rsv, op, -, rfl⟩ := exec_request_cases hp h
  case inr.inr.inr.inr.inl => exact ⟨rfl, rfl, rfl, rfl, .inr ⟨hw, rfl⟩⟩
  all_goals exact ⟨rfl, rfl, rfl, rfl, .inl hp⟩

/-- The registers that the requests write, by request. -/
theorem exec_request_registers {w : Word} {s t : State} (hp : s.phase = .idle)
    (h : exec (decodeRequest w) s = .next t) :
    (t.crcAcc ≠ s.crcAcc → decodeRequest w = .crcInit ∨ ∃ b, decodeRequest w = .crcUpdate b) ∧
    (t.result ≠ s.result → decodeRequest w = .crcFinal) ∧
    (t.cmd ≠ s.cmd → decodeRequest w = .encode ∨ decodeRequest w = .scan) := by
  obtain ⟨hw, rfl⟩ | ⟨b, hw, rfl⟩ | ⟨hw, rfl⟩ | ⟨hw, rfl⟩ | ⟨hw, rfl⟩ | ⟨d, rsv, op, hw, rfl⟩ :=
    exec_request_cases hp h <;> simp [hw]

/-- The decode always finishes with an outcome of a cycle. -/
theorem frameDecoded_outcome_ne_none (s : State) : (frameDecoded s).outcome ≠ .none := by
  unfold frameDecoded
  split
  · next payload _ _ _ => rcases decodeTagPayload_outcome Config.masks payload with h | h <;> simp [h]
  · simp

/-- The block's step by what it can do to the registers, the held words, the phase and the outward streams: it takes a
request, or it leaves the registers and the held words alone. -/
theorem blockStep_frame {s t : State} (h : blockStep s = .next t) :
    (s.phase = .idle ∧ ∃ w r, s.reqs = w :: r ∧ exec (decodeRequest w) { s with reqs := r } = .next t) ∨
    (t.crcAcc = s.crcAcc ∧ t.result = s.result ∧ t.cmd = s.cmd ∧ t.reqs = s.reqs ∧
      (s.phase = .idle → t.phase = .idle) ∧ (s.phase ≠ .idle → t.phase = .idle → t.outcome ≠ .none) ∧
      (t.txs = s.txs ∨ (s.phase = .send ∧ t.txs = s.txs ++ s.cmd.bytes)) ∧
      (t.sink = s.sink ∨ (s.phase = .decode ∧ ∃ records, t.sink = s.sink ++ records))) := by
  obtain ⟨hp, -, rfl⟩ | h | ⟨hp, rfl⟩ | ⟨hp, rfl⟩ | ⟨hp, -, rfl⟩ | ⟨hp, -, -, rfl⟩ | ⟨hp, -, b, r, -, rfl⟩ |
    ⟨hp, -, b, r, -, -, rfl⟩ | ⟨hp, -, b, r, -, -, rfl⟩ | ⟨hp, -, b, r, -, -, rfl⟩ | ⟨hp, -, rfl⟩ := blockStep_cases h
  case inr.inl => exact .inl h
  all_goals right
  · simp [hp]
  · simp [hp]
  · simp [hp]
  · refine ⟨rfl, rfl, rfl, rfl, fun _ => rfl, fun _ _ => ?_, .inl rfl, .inl rfl⟩
    dsimp only
    split <;> simp
  · exact ⟨rfl, rfl, rfl, rfl, id, fun hne hi => absurd hi hne, .inl rfl, .inl rfl⟩
  · simp only [hp]
    split <;> simp
  · simp [hp]
  · simp [hp]
  · simp only [hp]
    split <;> simp
  · simp [hp, frameDecoded_outcome_ne_none]

/-- Settles O20: a step that is no reset changes a register only where the block takes a request. -/
theorem registersChangeOnlyByTheirRequests : Obligations.RegistersChangeOnlyByTheirRequests := by
  intro s t h hreset hchange
  obtain ⟨hturn, hblock⟩ | ⟨es, hsched, -⟩ | ⟨-, es, rxq, now, reqs, reads, loop, rfl⟩ := step_next_cases h
  · obtain ⟨hp, w, r, hr, hexec⟩ | ⟨hacc, hres, hcmd, -⟩ := blockStep_frame hblock
    · exact ⟨hturn, hp, w, r, hr, exec_request_registers (s := { turnTaken s with reqs := r }) hp hexec⟩
    · simp [hacc, hres, hcmd] at hchange
  · simp [hsched] at hreset
  · simp at hchange

/-- Settles O52: outside `IDLE` the block's step is none of those that take a request. -/
theorem busyBlockTakesNoRequest : Obligations.BusyBlockTakesNoRequest := by
  intro s t ht hp h
  rw [step_of_blockTurn ht] at h
  obtain ⟨hidle, -⟩ | ⟨-, -, -, hreqs, -⟩ := blockStep_frame h
  · exact absurd hidle hp
  · exact hreqs

/-- The one word that decodes to `SCAN`. -/
theorem decodeRequest_eq_scan_iff {w : Word} : decodeRequest w = .scan ↔ w = 0x0005 := by
  rw [decodeRequest_eq_iff]
  constructor
  · rintro ⟨-, h⟩
    exact (Encoding.request.inj h).symm
  · rintro rfl
    exact ⟨rfl, rfl⟩

/-- Settles O53: only the request `SCAN` leaves `IDLE`, and only a step that finishes or a reset comes back to it. -/
theorem cycleBeginsWithScanEndsWithOutcome : Obligations.CycleBeginsWithScanEndsWithOutcome := by
  intro s t h
  obtain ⟨hturn, hblock⟩ | ⟨es, hsched, rfl⟩ | ⟨-, es, rxq, now, reqs, reads, loop, rfl⟩ := step_next_cases h
  · obtain ⟨hp, w, r, hr, hexec⟩ | ⟨-, -, -, -, hstay, hfinish, -⟩ := blockStep_frame hblock
    · refine ⟨fun _ hne => ?_, fun hne => absurd hp hne⟩
      obtain ⟨-, -, -, -, hidle | ⟨hscan, hdrain⟩⟩ :=
        exec_request_frame (s := { turnTaken s with reqs := r }) hp hexec
      · exact absurd hidle hne
      · exact ⟨hturn, hdrain, r, by rw [← decodeRequest_eq_scan_iff.1 hscan]; exact hr⟩
    · exact ⟨fun hp hne => absurd (hstay hp) hne, fun hp hi => .inr (hfinish hp hi)⟩
  · exact ⟨fun _ hne => absurd rfl hne, fun _ _ => .inl (by rw [hsched]; rfl)⟩
  · exact ⟨fun hp hne => absurd hp hne, fun hne hp => absurd hp hne⟩

/-- Settles O54: requests and the other agents' moves leave the outward streams alone. -/
theorem outwardStreamsOnlyGrow : Obligations.OutwardStreamsOnlyGrow := by
  intro s t h
  obtain ⟨-, hblock⟩ | ⟨es, -, rfl⟩ | ⟨-, es, rxq, now, reqs, reads, loop, rfl⟩ := step_next_cases h
  · obtain ⟨hp, w, r, -, hexec⟩ | ⟨-, -, -, -, -, -, htxs, hsink⟩ := blockStep_frame hblock
    · obtain ⟨htxs, hsink, -⟩ := exec_request_frame (s := { turnTaken s with reqs := r }) hp hexec
      exact ⟨.inl htxs, .inl hsink⟩
    · exact ⟨htxs, hsink⟩
  · exact ⟨.inl rfl, .inl rfl⟩
  · exact ⟨.inl rfl, .inl rfl⟩

end Sys2Proof.Machine
end

section
/-! SUPPORT. The invariant of 10_state.md rule R43: what it says in each phase, that every step keeps it and has a next state
under it, and the settled statements about it. -/

namespace Sys2Proof.Machine

open Sys2Proof.Safety

/-! ### The invariant, phase by phase -/

theorem stateOk_of_idle {s : State} (hp : s.phase = .idle) :
    StateOk s ↔ fbOk s.fb = true ∧ s.idx.toNat ≤ 68 := by
  simp [StateOk, hp, Config.fbufCap, Config.maxLen]

theorem stateOk_of_drain_or_send {s : State} (hp : s.phase = .drain ∨ s.phase = .send) :
    StateOk s ↔ fbOk s.fb = true ∧ s.idx.toNat ≤ 68 ∧ s.outcome = .none ∧ s.illegal = false ∧
      s.cmd = commandFrame := by
  rcases hp with hp | hp <;> simp [StateOk, hp, Config.fbufCap, Config.maxLen, and_assoc]

theorem stateOk_of_hunt {s : State} (hp : s.phase = .hunt) :
    StateOk s ↔ fbOk s.fb = true ∧ s.idx.toNat ≤ 68 ∧ s.outcome = .none ∧ s.illegal = false := by
  simp [StateOk, hp, Config.fbufCap, Config.maxLen]

theorem stateOk_of_len {s : State} (hp : s.phase = .len) :
    StateOk s ↔ fbOk s.fb = true ∧ s.idx.toNat ≤ 68 ∧ s.outcome = .none ∧ s.illegal = false ∧
      memRead s.fb 0 = Config.startMark := by
  simp [StateOk, hp, Config.fbufCap, Config.maxLen, and_assoc]

theorem stateOk_of_body {s : State} (hp : s.phase = .body) :
    StateOk s ↔ fbOk s.fb = true ∧ s.idx.toNat ≤ 68 ∧ s.outcome = .none ∧ s.illegal = false ∧
      memRead s.fb 0 = Config.startMark ∧ s.len.toNat ≤ 64 ∧ memRead s.fb 1 = s.len ∧
      2 ≤ s.idx.toNat ∧ s.idx.toNat < s.len.toNat + 4 := by
  simp [StateOk, hp, Config.fbufCap, Config.maxLen, and_assoc]

theorem stateOk_of_decode {s : State} (hp : s.phase = .decode) :
    StateOk s ↔ fbOk s.fb = true ∧ s.idx.toNat ≤ 68 ∧ s.outcome = .none ∧ s.illegal = false ∧
      memRead s.fb 0 = Config.startMark ∧ s.len.toNat ≤ 64 ∧ memRead s.fb 1 = s.len ∧
      s.idx.toNat = s.len.toNat + 4 := by
  simp [StateOk, hp, Config.fbufCap, Config.maxLen, and_assoc]

theorem stateOk_fb {s : State} (h : StateOk s) : fbOk s.fb = true := h.1

theorem stateOk_idx {s : State} (h : StateOk s) : s.idx.toNat ≤ 68 := h.2.1

/-- Settles O48: the reset state is idle, with an empty frame buffer. -/
theorem resetMeetsInvariant : Obligations.ResetMeetsInvariant :=
  (stateOk_of_idle rfl).2 ⟨rfl, by decide⟩

/-- A request keeps the invariant: `SCAN` establishes what a cycle starts with. -/
theorem exec_request_keeps_stateOk {w : Word} {s t : State} (hp : s.phase = .idle) (hs : StateOk s)
    (h : exec (decodeRequest w) s = .next t) : StateOk t := by
  obtain ⟨hfb, hidx⟩ := (stateOk_of_idle hp).1 hs
  obtain ⟨-, -, hfb', hidx', hidle | ⟨hscan, -⟩⟩ := exec_request_frame hp h
  · exact (stateOk_of_idle hidle).2 ⟨hfb' ▸ hfb, hidx' ▸ hidx⟩
  · rw [hscan, exec_scan_of_idle hp] at h
    obtain rfl := Host.Outcome.next.inj h
    exact (stateOk_of_drain_or_send (.inl rfl)).2 ⟨hfb, hidx, rfl, rfl, commandFrame_eq.symm⟩

/-- The start marker found is the byte at index 0. -/
theorem hunt_keeps_stateOk {s : State} {b : Byte} {r : List Byte} (hs : StateOk s) (hp : s.phase = .hunt) :
    StateOk { s with
      rxq := r, fb := if b = Config.startMark then memWrite s.fb 0 b else s.fb,
      phase := if b = Config.startMark then .len else .hunt } := by
  obtain ⟨hfb, hidx, hout, hill⟩ := (stateOk_of_hunt hp).1 hs
  by_cases hb : b = Config.startMark
  · simp only [hb, if_true]
    exact (stateOk_of_len rfl).2
      ⟨fbOk_memWrite _ (by decide) hfb, hidx, hout, hill, memRead_memWrite_self _ _ (wf_of_fbOk hfb)⟩
  · simp only [hb, if_false]
    exact (stateOk_of_hunt rfl).2 ⟨hfb, hidx, hout, hill⟩

/-- An accepted length is the byte at index 1, and the body begins below its end. -/
theorem len_accept_keeps_stateOk {s : State} {b : Byte} {r : List Byte} (hs : StateOk s) (hp : s.phase = .len)
    (hb : b.toNat ≤ 64) :
    StateOk { s with rxq := r, len := b, fb := memWrite s.fb 1 b, idx := 2, phase := .body } := by
  obtain ⟨hfb, -, hout, hill, h0⟩ := (stateOk_of_len hp).1 hs
  have h0' : memRead (memWrite s.fb 1 b) 0 = Config.startMark := (memRead_memWrite_ne _ _ (by decide)).trans h0
  have hidx : (2 : Byte).toNat ≤ 68 ∧ 2 ≤ (2 : Byte).toNat := by decide
  have hend : (2 : Byte).toNat < b.toNat + 4 := by
    show 2 < b.toNat + 4
    omega
  exact (stateOk_of_body rfl).2 ⟨fbOk_memWrite _ (by decide) hfb, hidx.1, hout, hill, h0', hb,
    memRead_memWrite_self _ _ (wf_of_fbOk hfb), hidx.2, hend⟩

/-- A body byte leaves indices 0 and 1 alone, and the index does not pass `L + 4`. -/
theorem body_keeps_stateOk {s : State} {b : Byte} {r : List Byte} (hs : StateOk s) (hp : s.phase = .body) :
    StateOk { s with
      rxq := r, fb := memWrite s.fb s.idx.toNat b, idx := s.idx + 1,
      phase := if s.idx.toNat + 1 = s.len.toNat + 4 then .decode else .body } := by
  obtain ⟨hfb, -, hout, hill, h0, hl, h1, h2, hlen⟩ := (stateOk_of_body hp).1 hs
  have hlt : s.idx.toNat < 68 := by omega
  have hsucc := toNat_idx_succ hlt
  have hfb' := fbOk_memWrite b (show s.idx.toNat < Config.fbufCap from hlt) hfb
  have h0' : memRead (memWrite s.fb s.idx.toNat b) 0 = Config.startMark :=
    (memRead_memWrite_ne _ _ (by omega)).trans h0
  have h1' : memRead (memWrite s.fb s.idx.toNat b) 1 = s.len := (memRead_memWrite_ne _ _ (by omega)).trans h1
  have hidx : (s.idx + 1).toNat ≤ 68 ∧ 2 ≤ (s.idx + 1).toNat := by omega
  split
  · next hend =>
    exact (stateOk_of_decode rfl).2 ⟨hfb', hidx.1, hout, hill, h0', hl, h1', hsucc.trans hend⟩
  · next hmore =>
    have hend : (s.idx + 1).toNat < s.len.toNat + 4 := by omega
    exact (stateOk_of_body rfl).2 ⟨hfb', hidx.1, hout, hill, h0', hl, h1', hidx.2, hend⟩

/-- The block's step keeps the invariant, case by case of what it can do. -/
theorem blockStep_keeps_stateOk {s t : State} (hs : StateOk s) (h : blockStep s = .next t) : StateOk t := by
  have hfb := stateOk_fb hs
  have hidx := stateOk_idx hs
  obtain ⟨-, -, rfl⟩ | ⟨hp, w, r, -, hexec⟩ | ⟨hp, rfl⟩ | ⟨hp, rfl⟩ | ⟨-, -, rfl⟩ | ⟨-, -, -, rfl⟩ |
    ⟨hp, -, b, r, -, rfl⟩ | ⟨hp, -, b, r, -, -, rfl⟩ | ⟨hp, -, b, r, -, hb, rfl⟩ | ⟨hp, -, b, r, -, -, rfl⟩ |
    ⟨-, -, rfl⟩ := blockStep_cases h
  · exact hs
  · exact exec_request_keeps_stateOk (s := { s with reqs := r }) hp hs hexec
  · exact (stateOk_of_drain_or_send (.inr rfl)).2 ((stateOk_of_drain_or_send (.inl hp)).1 hs)
  · obtain ⟨-, -, hout, hill, -⟩ := (stateOk_of_drain_or_send (.inr hp)).1 hs
    exact (stateOk_of_hunt rfl).2 ⟨hfb, hidx, hout, hill⟩
  · exact (stateOk_of_idle rfl).2 ⟨hfb, hidx⟩
  · exact hs
  · exact hunt_keeps_stateOk hs hp
  · obtain ⟨-, -, hout, hill, -⟩ := (stateOk_of_len hp).1 hs
    exact (stateOk_of_hunt rfl).2 ⟨hfb, hidx, hout, hill⟩
  · exact len_accept_keeps_stateOk hs hp hb
  · exact body_keeps_stateOk hs hp
  · exact (stateOk_of_idle rfl).2 ⟨hfb, hidx⟩

/-- Settles O49: the block's step keeps the invariant, a reset establishes it, and no other move touches it. -/
theorem stepKeepsInvariant : Obligations.StepKeepsInvariant := by
  intro s t hs h
  obtain ⟨-, hblock⟩ | ⟨es, -, rfl⟩ | ⟨-, es, rxq, now, reqs, reads, loop, rfl⟩ := step_next_cases h
  · exact blockStep_keeps_stateOk (s := turnTaken s) hs hblock
  · exact (stateOk_of_idle rfl).2 ⟨rfl, Nat.zero_le 68⟩
  · exact hs

/-! ### Every step has a next state -/

theorem exec_answers (i : Instr) (s : State) : ∃ t, exec i s = .next t := by
  cases i <;> exact ⟨_, rfl⟩

/-- Under the invariant the body's index and the declared length are in range, so the block does not stop. -/
theorem blockStep_answers {s : State} (hs : StateOk s) : ∃ t, blockStep s = .next t := by
  have reader (hp : readerPhase s.phase = true)
      (hcons : s.windowOpen = true → ∀ b r, s.rxq = b :: r → ∃ t, blockStep s = .next t) :
      ∃ t, blockStep s = .next t := by
    cases hw : s.windowOpen with
    | false => exact ⟨_, blockStep_reader_closed hp hw⟩
    | true =>
      cases hr : s.rxq with
      | nil => exact ⟨_, blockStep_reader_nil hp hw hr⟩
      | cons b r => exact hcons hw b r hr
  cases hp : s.phase with
  | idle =>
    cases hr : s.reqs with
    | nil => exact ⟨_, blockStep_idle_nil hp hr⟩
    | cons w r => exact blockStep_idle_cons hp hr ▸ exec_answers _ _
  | drain => exact ⟨_, blockStep_drain hp⟩
  | send => exact ⟨_, blockStep_send hp⟩
  | hunt => exact reader (by rw [hp]; rfl) fun hw b r hr => ⟨_, blockStep_hunt_cons hp hw hr⟩
  | len =>
    refine reader (by rw [hp]; rfl) fun hw b r hr => ?_
    by_cases hb : 64 < b.toNat
    · exact blockStep_len_oversize hp hw hr hb ▸ exec_answers _ _
    · exact ⟨_, blockStep_len_accept hp hw hr (Nat.le_of_not_lt hb)⟩
  | body =>
    obtain ⟨-, -, -, -, -, hl, -, -, hlt⟩ := (stateOk_of_body hp).1 hs
    exact reader (by rw [hp]; rfl) fun hw b r hr => ⟨_, blockStep_body_cons hp hw hr (by omega)⟩
  | decode =>
    obtain ⟨-, -, -, -, -, hl, -⟩ := (stateOk_of_decode hp).1 hs
    exact ⟨_, blockStep_decode_report hp hl⟩

/-- Settles O50: the block answers under the invariant, and the other agents always. -/
theorem noConditionIsFatal : Obligations.NoConditionIsFatal := by
  intro s hs
  obtain ⟨-, hstep⟩ | ⟨-, e, es, -, -, hstep⟩ := step_cases s
  · exact hstep ▸ blockStep_answers (s := turnTaken s) hs
  · exact ⟨_, hstep⟩

end Sys2Proof.Machine
end

section
/-! SUPPORT. What carries over from cycle to cycle (44_scan_cycle.md rule R208): two states at the same point of the same cycle,
phase by phase, and that every step of one is matched by a step of the other. -/

namespace Sys2Proof.Machine

open Sys2Proof.Safety

/-! ### The relation, phase by phase -/

/-- What two states at the same point of a cycle share in every phase. -/
def sameBase (s t : State) : Prop :=
  s.phase = t.phase ∧ s.schedule = t.schedule ∧ s.now = t.now ∧ s.reqs = t.reqs ∧ s.loop = t.loop ∧
  s.outcome = t.outcome ∧ s.oversizeCnt = t.oversizeCnt ∧ s.illegal = t.illegal

theorem sameBase_of_sameCycle {s t : State} (h : sameCycle s t) : sameBase s t := by
  obtain ⟨hp, hsched, hnow, hreqs, hloop, hout, hcnt, hill, -⟩ := h
  exact ⟨hp, hsched, hnow, hreqs, hloop, hout, hcnt, hill⟩

theorem sameCycle_of_idle {s t : State} (hp : s.phase = .idle) : sameCycle s t ↔ sameBase s t := by
  simp [sameCycle, sameBase, hp, readerPhase]

theorem sameCycle_of_drain {s t : State} (hp : s.phase = .drain) : sameCycle s t ↔ sameBase s t ∧ s.cmd = t.cmd := by
  simp [sameCycle, sameBase, hp, readerPhase, and_assoc]

theorem sameCycle_of_send {s t : State} (hp : s.phase = .send) :
    sameCycle s t ↔ sameBase s t ∧ s.cmd = t.cmd ∧ s.rxq = t.rxq := by
  simp [sameCycle, sameBase, hp, readerPhase, and_assoc]

theorem sameCycle_of_hunt_or_len {s t : State} (hp : s.phase = .hunt ∨ s.phase = .len) :
    sameCycle s t ↔ sameBase s t ∧ s.cmd = t.cmd ∧ s.rxq = t.rxq ∧ s.t0 = t.t0 := by
  rcases hp with hp | hp <;> simp [sameCycle, sameBase, hp, readerPhase, and_assoc]

theorem sameCycle_of_body {s t : State} (hp : s.phase = .body) :
    sameCycle s t ↔ sameBase s t ∧ s.cmd = t.cmd ∧ s.rxq = t.rxq ∧ s.t0 = t.t0 ∧
      s.len = t.len ∧ s.idx = t.idx ∧ fbAgree s.fb t.fb 2 s.idx.toNat := by
  simp [sameCycle, sameBase, hp, readerPhase, and_assoc]

theorem sameCycle_of_decode {s t : State} (hp : s.phase = .decode) :
    sameCycle s t ↔ sameBase s t ∧ s.cmd = t.cmd ∧ s.len = t.len ∧ fbAgree s.fb t.fb 2 (s.len.toNat + 2) := by
  simp [sameCycle, sameBase, hp, readerPhase, and_assoc]

/-- In a reader phase both have the same bytes to read and the same window. -/
theorem sameCycle_reader {s t : State} (hp : readerPhase s.phase = true) (h : sameCycle s t) :
    s.rxq = t.rxq ∧ s.windowOpen = t.windowOpen := by
  obtain ⟨-, -, hnow, -, -, -, -, -, -, hrxq, ht0, -⟩ := h
  exact ⟨hrxq (.inr hp), by rw [State.windowOpen, State.windowOpen, elapsed_def, elapsed_def, hnow, ht0 hp]⟩

/-- The same byte written at the same place extends the agreement of two canonical buffers by that place. -/
theorem fbAgree_memWrite {a b : Memory} {lo hi : Nat} (v : Byte) (ha : Memory.wf a = true) (hb : Memory.wf b = true)
    (h : fbAgree a b lo hi) : fbAgree (memWrite a hi v) (memWrite b hi v) lo (hi + 1) := by
  intro i hlo hhi
  by_cases hi' : i = hi
  · rw [hi', memRead_memWrite_self _ _ ha, memRead_memWrite_self _ _ hb]
  · rw [memRead_memWrite_ne _ _ hi', memRead_memWrite_ne _ _ hi', h i hlo (by omega)]

/-! ### Matched steps -/

/-- What `t` answers matches the move from `s` to `s'`: the same point again, the same records, the same bytes sent. -/
def matchedBy (s t s' : State) (answer : Host.Outcome State Fault Refusal) : Prop :=
  ∃ t' records sent, answer = .next t' ∧ sameCycle s' t' ∧
    s'.sink = s.sink ++ records ∧ t'.sink = t.sink ++ records ∧ s'.txs = s.txs ++ sent ∧ t'.txs = t.txs ++ sent

/-- A matched move that neither emits nor transmits. -/
theorem matchedBy_of_silent {s t s' t' : State} (h : sameCycle s' t') (hs : s'.sink = s.sink ∧ s'.txs = s.txs)
    (ht : t'.sink = t.sink ∧ t'.txs = t.txs) : matchedBy s t s' (.next t') :=
  ⟨t', [], [], rfl, h, by simp [hs], by simp [ht], by simp [hs], by simp [ht]⟩

/-- A request does the same to both: what it writes of its own is `CRC_ACC`, `RESULT` or `CMD`, and `SCAN` writes the same
`CMD` to both. -/
theorem request_matched {s t s' : State} {w : Word} (hp : s.phase = .idle) (hst : sameCycle s t)
    (h : exec (decodeRequest w) s = .next s') : matchedBy s t s' (exec (decodeRequest w) t) := by
  obtain ⟨hph, hsched, hnow, hreqs, hloop, hout, hcnt, hill⟩ := (sameCycle_of_idle hp).1 hst
  have hpt : t.phase = .idle := hph ▸ hp
  obtain ⟨hw, rfl⟩ | ⟨b, hw, rfl⟩ | ⟨hw, rfl⟩ | ⟨hw, rfl⟩ | ⟨hw, rfl⟩ | ⟨d, rsv, op, hw, rfl⟩ :=
    exec_request_cases hp h
  case inr.inr.inr.inr.inl =>
    rw [hw, exec_scan_of_idle hpt]
    exact matchedBy_of_silent
      ((sameCycle_of_drain rfl).2 ⟨⟨rfl, hsched, hnow, hreqs, hloop, rfl, rfl, rfl⟩, commandFrame_eq⟩)
      ⟨rfl, rfl⟩ ⟨rfl, rfl⟩
  all_goals
    simp only [hw, exec_crcInit_of_idle hpt, exec_crcUpdate_of_idle _ hpt, exec_crcFinal_of_idle hpt,
      exec_encode_of_idle hpt, exec_illegal_of_idle _ _ _ hpt]
    exact matchedBy_of_silent ((sameCycle_of_idle (by exact hp)).2 ⟨hph, hsched, hnow, hreqs, hloop, hout, hcnt, rfl⟩)
      ⟨rfl, rfl⟩ ⟨rfl, rfl⟩

/-- The hunt keeps the same bytes to read, and both find the start marker or neither. -/
theorem hunt_matched {s t : State} {b : Byte} {r : List Byte} (hst : sameCycle s t) (hp : s.phase = .hunt)
    (hw : s.windowOpen = true) (hr : s.rxq = b :: r) :
    matchedBy s t { s with
      rxq := r, fb := if b = Config.startMark then memWrite s.fb 0 b else s.fb,
      phase := if b = Config.startMark then .len else .hunt } (blockStep t) := by
  obtain ⟨⟨hph, hsched, hnow, hreqs, hloop, hout, hcnt, hill⟩, hcmd, hrxq, ht0⟩ :=
    (sameCycle_of_hunt_or_len (.inl hp)).1 hst
  have hwin := (sameCycle_reader (by rw [hp]; rfl) hst).2
  have hpt : t.phase = .hunt := hph ▸ hp
  rw [blockStep_hunt_cons hpt (hwin ▸ hw) (hrxq ▸ hr), huntByte_eq]
  refine matchedBy_of_silent ((sameCycle_of_hunt_or_len ?_).2
    ⟨⟨?_, hsched, hnow, hreqs, hloop, hout, hcnt, hill⟩, hcmd, rfl, ht0⟩) ⟨rfl, rfl⟩ ⟨rfl, rfl⟩
  · by_cases hb : b = Config.startMark <;> simp [hb]
  · simp only [hpt]

/-- A rejected length is counted by both. -/
theorem len_oversize_matched {s t : State} {b : Byte} {r : List Byte} (hst : sameCycle s t) (hp : s.phase = .len)
    (hw : s.windowOpen = true) (hr : s.rxq = b :: r) (hb : 64 < b.toNat) :
    matchedBy s t { s with rxq := r, len := b, oversizeCnt := satInc s.oversizeCnt, phase := .hunt }
      (blockStep t) := by
  obtain ⟨⟨hph, hsched, hnow, hreqs, hloop, hout, hcnt, hill⟩, hcmd, hrxq, ht0⟩ :=
    (sameCycle_of_hunt_or_len (.inr hp)).1 hst
  have hwin := (sameCycle_reader (by rw [hp]; rfl) hst).2
  have hpt : t.phase = .len := hph ▸ hp
  rw [blockStep_len_oversize hpt (hwin ▸ hw) (hrxq ▸ hr) hb, exec_rspOversize_of_len b (by exact hpt), ← satInc_eq]
  exact matchedBy_of_silent ((sameCycle_of_hunt_or_len (.inl rfl)).2
    ⟨⟨rfl, hsched, hnow, hreqs, hloop, hout, congrArg satInc hcnt, hill⟩, hcmd, rfl, ht0⟩) ⟨rfl, rfl⟩ ⟨rfl, rfl⟩

/-- From an accepted length on both have the same `L` and `IDX`, and no body byte yet on which to agree. -/
theorem len_accept_matched {s t : State} {b : Byte} {r : List Byte} (hst : sameCycle s t) (hp : s.phase = .len)
    (hw : s.windowOpen = true) (hr : s.rxq = b :: r) (hb : b.toNat ≤ 64) :
    matchedBy s t { s with rxq := r, len := b, fb := memWrite s.fb 1 b, idx := 2, phase := .body }
      (blockStep t) := by
  obtain ⟨⟨hph, hsched, hnow, hreqs, hloop, hout, hcnt, hill⟩, hcmd, hrxq, ht0⟩ :=
    (sameCycle_of_hunt_or_len (.inr hp)).1 hst
  have hwin := (sameCycle_reader (by rw [hp]; rfl) hst).2
  rw [blockStep_len_accept (hph ▸ hp) (hwin ▸ hw) (hrxq ▸ hr) hb]
  exact matchedBy_of_silent ((sameCycle_of_body rfl).2
    ⟨⟨rfl, hsched, hnow, hreqs, hloop, hout, hcnt, hill⟩, hcmd, rfl, ht0, rfl, rfl,
      fun i h2 hlt => absurd hlt (Nat.not_lt.2 h2)⟩) ⟨rfl, rfl⟩ ⟨rfl, rfl⟩

/-- A body byte extends the bytes on which both agree, to the whole payload when the frame is complete. -/
theorem body_matched {s t : State} {b : Byte} {r : List Byte} (hs : Memory.wf s.fb = true) (ht : Memory.wf t.fb = true)
    (hst : sameCycle s t) (hp : s.phase = .body) (hw : s.windowOpen = true) (hr : s.rxq = b :: r)
    (hi : s.idx.toNat < 68) :
    matchedBy s t { s with
      rxq := r, fb := memWrite s.fb s.idx.toNat b, idx := s.idx + 1,
      phase := if s.idx.toNat + 1 = s.len.toNat + 4 then .decode else .body } (blockStep t) := by
  obtain ⟨⟨hph, hsched, hnow, hreqs, hloop, hout, hcnt, hill⟩, hcmd, hrxq, ht0, hlen, hidx, hfb⟩ :=
    (sameCycle_of_body hp).1 hst
  have hwin := (sameCycle_reader (by rw [hp]; rfl) hst).2
  have hfb' := fbAgree_memWrite b hs ht hfb
  rw [blockStep_body_cons (hph ▸ hp) (hwin ▸ hw) (hrxq ▸ hr) (hidx ▸ hi), ← hidx, ← hlen]
  refine matchedBy_of_silent ?_ ⟨rfl, rfl⟩ ⟨rfl, rfl⟩
  split
  · next hend =>
    exact (sameCycle_of_decode rfl).2 ⟨⟨rfl, hsched, hnow, hreqs, hloop, hout, hcnt, hill⟩, hcmd, rfl,
      fun i h2 hlt => hfb' i h2 (show i < s.idx.toNat + 1 by simp only at hlt; omega)⟩
  · exact (sameCycle_of_body rfl).2 ⟨⟨rfl, hsched, hnow, hreqs, hloop, hout, hcnt, hill⟩, hcmd, rfl, ht0, rfl, rfl,
      by simpa only [toNat_idx_succ hi] using hfb'⟩

/-- Each of the block's steps is matched. -/
theorem blockStep_matched {s t s' : State} (hs : StateOk s) (ht : StateOk t) (hst : sameCycle s t)
    (h : blockStep s = .next s') : matchedBy s t s' (blockStep t) := by
  have hbase := sameBase_of_sameCycle hst
  obtain ⟨hph, hsched, hnow, hreqs, hloop, hout, hcnt, hill⟩ := hbase
  obtain ⟨hp, hr, rfl⟩ | ⟨hp, w, r, hr, hexec⟩ | ⟨hp, rfl⟩ | ⟨hp, rfl⟩ | ⟨hp, hw, rfl⟩ | ⟨hp, hw, hr, rfl⟩ |
    ⟨hp, hw, b, r, hr, rfl⟩ | ⟨hp, hw, b, r, hr, hb, rfl⟩ | ⟨hp, hw, b, r, hr, hb, rfl⟩ | ⟨hp, hw, b, r, hr, hi, rfl⟩ |
    ⟨hp, hl, rfl⟩ := blockStep_cases h
  · rw [blockStep_idle_nil (hph ▸ hp) (hreqs ▸ hr)]
    exact matchedBy_of_silent hst ⟨rfl, rfl⟩ ⟨rfl, rfl⟩
  · rw [blockStep_idle_cons (hph ▸ hp) (hreqs ▸ hr)]
    exact request_matched (s := { s with reqs := r }) (t := { t with reqs := r }) hp
      ((sameCycle_of_idle (by exact hp)).2 ⟨hph, hsched, hnow, rfl, hloop, hout, hcnt, hill⟩) hexec
  · obtain ⟨-, hcmd⟩ := (sameCycle_of_drain hp).1 hst
    rw [blockStep_drain (hph ▸ hp)]
    exact matchedBy_of_silent ((sameCycle_of_send rfl).2
      ⟨⟨rfl, hsched, hnow, hreqs, hloop, hout, hcnt, hill⟩, hcmd, rfl⟩) ⟨rfl, rfl⟩ ⟨rfl, rfl⟩
  · obtain ⟨-, hcmd, hrxq⟩ := (sameCycle_of_send hp).1 hst
    rw [blockStep_send (hph ▸ hp)]
    exact ⟨_, [], s.cmd.bytes, rfl, (sameCycle_of_hunt_or_len (.inl rfl)).2
        ⟨⟨rfl, hsched, hnow, hreqs, hloop, hout, hcnt, hill⟩, hcmd, hrxq, hnow⟩,
      by simp, by simp, rfl, by rw [hcmd]; rfl⟩
  · have hpt : readerPhase t.phase = true := hph ▸ hp
    rw [blockStep_reader_closed hpt ((sameCycle_reader hp hst).2 ▸ hw), deadline_eq, ← hph]
    exact matchedBy_of_silent ((sameCycle_of_idle rfl).2 ⟨rfl, hsched, hnow, hreqs, hloop, rfl, hcnt, hill⟩)
      ⟨rfl, rfl⟩ ⟨rfl, rfl⟩
  · obtain ⟨hrxq, hwin⟩ := sameCycle_reader hp hst
    rw [blockStep_reader_nil (hph ▸ hp) (hwin ▸ hw) (hrxq ▸ hr)]
    exact matchedBy_of_silent hst ⟨rfl, rfl⟩ ⟨rfl, rfl⟩
  · exact hunt_matched hst hp hw hr
  · exact len_oversize_matched hst hp hw hr hb
  · exact len_accept_matched hst hp hw hr hb
  · exact body_matched (wf_of_fbOk (stateOk_fb hs)) (wf_of_fbOk (stateOk_fb ht)) hst hp hw hr hi
  · obtain ⟨-, hcmd, hlen, hfb⟩ := (sameCycle_of_decode hp).1 hst
    rw [blockStep_decode_report (hph ▸ hp) (hlen ▸ hl), ← frameDecoded_congr hlen hfb]
    exact ⟨_, (frameDecoded s).records, [], rfl,
      (sameCycle_of_idle rfl).2 ⟨rfl, hsched, hnow, hreqs, hloop, rfl, hcnt, hill⟩, rfl, rfl, by simp, by simp⟩

/-- The same change of what both share of the environment, and whatever change of what they do not, keeps the point. -/
theorem sameCycle_environment {s t : State} {rxq rxq' : List Byte} (reads reads' : List RegRead) (now : Millis)
    (reqs : List Word) (loop : LoopState) (hst : sameCycle s t) (hrxq : s.rxq = t.rxq → rxq = rxq') :
    sameCycle { s with rxq := rxq, now := now, reqs := reqs, loop := loop, reads := reads }
      { t with rxq := rxq', now := now, reqs := reqs, loop := loop, reads := reads' } := by
  obtain ⟨hph, hsched, -, -, -, hout, hcnt, hill, hcmd, hq, hrest⟩ := hst
  exact ⟨hph, hsched, rfl, rfl, rfl, hout, hcnt, hill, hcmd, fun h => hrxq (hq h), hrest⟩

/-- The other agents' moves are matched: they see of the block only what both share, and the values a register read returns
are kept where no step sees them. -/
theorem envMove_matched {s t : State} (e : Event) (hst : sameCycle s t) :
    matchedBy s t (envMove e s) (.next (envMove e t)) := by
  have hbase := sameBase_of_sameCycle hst
  obtain ⟨hph, hsched, hnow, hreqs, hloop, -⟩ := hbase
  have kept {rxq rxq' : List Byte} (reads reads' : List RegRead) (now : Millis) (reqs : List Word) (loop : LoopState)
      (hrxq : s.rxq = t.rxq → rxq = rxq') :=
    matchedBy_of_silent (sameCycle_environment reads reads' now reqs loop hst hrxq) (s := s) (t := t)
      ⟨rfl, rfl⟩ ⟨rfl, rfl⟩
  cases e with
  | codec => exact matchedBy_of_silent hst ⟨rfl, rfl⟩ ⟨rfl, rfl⟩
  | hostReset =>
    exact matchedBy_of_silent
      ((sameCycle_of_idle rfl).2 ⟨rfl, hsched, hnow, hreqs, hloop, rfl, rfl, rfl⟩) ⟨rfl, rfl⟩ ⟨rfl, rfl⟩
  | hostRequest w =>
    simpa only [envMove, State.issue, hnow, hreqs, hloop] using
      kept s.reads t.reads t.now (t.reqs ++ [w]) t.loop id
  | hostRead i =>
    simpa only [envMove, State.hostRead, hnow, hreqs, hloop] using
      kept (s.reads ++ [⟨i, s.regRead i⟩]) (t.reads ++ [⟨i, t.regRead i⟩]) t.now t.reqs t.loop id
  | rxByte b =>
    simpa only [envMove, State.receive, hnow, hreqs, hloop] using
      kept s.reads t.reads t.now t.reqs t.loop (congrArg (· ++ [b]))
  | tick d =>
    simpa only [envMove, State.advance, hnow, hreqs, hloop] using
      kept s.reads t.reads (t.now + d) t.reqs t.loop id
  | hostLoop clock =>
    have hready : s.ready = t.ready := by rw [State.ready, State.ready, hph]
    have issued := kept s.reads t.reads t.now (t.reqs ++ [scanWord]) .waiting id
    cases hl : t.loop with
    | start => simpa only [envMove, State.hostLoop, State.issue, hloop, hl, hnow, hreqs] using issued
    | waiting =>
      simp only [envMove, State.hostLoop, hloop, hl, hreqs, hready]
      split
      · simpa only [hnow, hreqs] using kept s.reads t.reads t.now t.reqs (.idling clock) id
      · exact matchedBy_of_silent hst ⟨rfl, rfl⟩ ⟨rfl, rfl⟩
    | idling since =>
      simp only [envMove, State.hostLoop, hloop, hl]
      split
      · simpa only [State.issue, hnow, hreqs] using issued
      · exact matchedBy_of_silent hst ⟨rfl, rfl⟩ ⟨rfl, rfl⟩

theorem blockTurn_congr {s t : State} (h : s.schedule = t.schedule) : blockTurn s = blockTurn t := by
  unfold blockTurn
  rw [h]

/-- Using up the move at the head keeps the point. -/
theorem sameCycle_with_schedule {s t : State} (es : List Event) (h : sameCycle s t) :
    sameCycle { s with schedule := es } { t with schedule := es } := by
  obtain ⟨hph, -, hrest⟩ := h
  exact ⟨hph, rfl, hrest⟩

/-- Settles O51: both have the same agent move next, and every agent's move is matched. -/
theorem carriedOverStateHasNoInfluence : Obligations.CarriedOverStateHasNoInfluence := by
  intro s t s' hs ht hst h
  have hbase := sameBase_of_sameCycle hst
  obtain ⟨-, hsched, -⟩ := hbase
  obtain ⟨hturn, hstep⟩ | ⟨-, e, es, hes, he, hstep⟩ := step_cases s
  · rw [step_of_blockTurn (s := t) (blockTurn_congr hsched ▸ hturn)]
    refine blockStep_matched (s := turnTaken s) (t := turnTaken t) hs ht ?_ (hstep ▸ h)
    rw [turnTaken, turnTaken, ← hsched]
    exact sameCycle_with_schedule _ hst
  · obtain rfl := Host.Outcome.next.inj (hstep.symm.trans h)
    rw [step_of_schedule (hsched ▸ hes) he]
    exact envMove_matched e (sameCycle_with_schedule es hst)

end Sys2Proof.Machine
end

section
/-! SUPPORT. Runs of several steps (42_reader.md, 44_scan_cycle.md): arrivals, the reader through noise and a frame, a whole
scan cycle, and the settled statements about them. -/

namespace Sys2Proof.Machine

open Sys2Proof.Safety

/-! ### Arrivals -/

/-- Received bytes queue up in their order. -/
theorem run_receive {s : State} {bytes : List Byte} {es : List Event} (h : s.schedule = bytes.map .rxByte ++ es) :
    run bytes.length s = .next { s with schedule := es, rxq := s.rxq ++ bytes } := by
  induction bytes generalizing s with
  | nil =>
    cases s
    simp_all
  | cons b bytes ih =>
    rw [List.length_cons, run_succ_of_next _ (step_rxByte h), ih rfl]
    simp

/-- Settles O24: the drain empties `RXQ`, the bytes queue up after it, and the send leaves them there. -/
theorem drainDiscardsAndLaterBytesStay : Obligations.DrainDiscardsAndLaterBytesStay := by
  intro s bytes es hp h
  have hdrain := step_drain (blockTurn_of_codec h) hp
  rw [turnTaken_of_cons h] at hdrain
  have hreceive := run_receive (s := ({ s with schedule := bytes.map .rxByte ++ .codec :: es } : State).drainRx) rfl
  rw [run_succ_of_next _ hdrain, run_add_of_next 1 hreceive,
    run_succ_of_next 0 (step_send (blockTurn_of_codec rfl) rfl)]
  rfl

theorem ticks_cons (e : Event) (es : List Event) : ticks (e :: es) = ticks [e] + ticks es := by
  cases e <;> simp [ticks]

theorem State.hostLoop_now (s : State) (clock : Millis) : (s.hostLoop clock).now = s.now := by
  unfold State.hostLoop
  repeat' split
  all_goals rfl

/-- Time moves by the ticks among the moves, and by nothing else. -/
theorem envMove_now {e : Event} (s : State) (h : isArrival e = true) : (envMove e s).now = s.now + ticks [e] := by
  cases e with
  | codec => cases h
  | hostReset => cases h
  | _ => simp [envMove, ticks, State.hostLoop_now]

/-- Arrivals of any kind leave the block alone and advance the time input by their ticks. -/
theorem run_arrivals {s : State} {es rest : List Event} (harr : ∀ e ∈ es, isArrival e = true)
    (h : s.schedule = es ++ rest) : ∃ rxq reqs reads loop, run es.length s =
      .next { s with
        schedule := rest, now := s.now + ticks es, rxq := rxq, reqs := reqs, reads := reads, loop := loop } := by
  induction es generalizing s with
  | nil =>
    refine ⟨s.rxq, s.reqs, s.reads, s.loop, ?_⟩
    cases s
    simp_all [ticks]
  | cons e es ih =>
    have he : isArrival e = true := harr e (by simp)
    have hcodec : e ≠ .codec := by
      rintro rfl
      cases he
    have hreset : e ≠ .hostReset := by
      rintro rfl
      cases he
    obtain ⟨rxq, now, reqs, reads, loop, hmove⟩ := envMove_frame { s with schedule := es ++ rest } hreset
    have hnow : now = s.now + ticks [e] := by
      have hmoved := envMove_now { s with schedule := es ++ rest } he
      rwa [hmove] at hmoved
    have hstep : step s = .next (envMove e { s with schedule := es ++ rest }) := step_of_schedule h hcodec
    rw [hmove, hnow] at hstep
    obtain ⟨rxq', reqs', reads', loop', hrun⟩ :=
      ih (s := { s with
          schedule := es ++ rest, rxq := rxq, now := s.now + ticks [e], reqs := reqs, reads := reads, loop := loop })
        (fun e' h' => harr e' (List.mem_cons_of_mem e h')) rfl
    refine ⟨rxq', reqs', reads', loop', ?_⟩
    rw [List.length_cons, run_succ_of_next _ hstep, hrun, ticks_cons e es, BitVec.add_assoc]

/-- Settles O34: the arrivals keep the phase and `T0`, and then the deadline ends the window. -/
theorem windowEndsOnceTimeHasPassed : Obligations.WindowEndsOnceTimeHasPassed := by
  intro s es rest hp harr h htime
  obtain ⟨rxq, reqs, reads, loop, hrun⟩ := run_arrivals harr h
  rw [run_add_of_next 1 hrun,
    run_succ_of_next 0 (deadlineEndsTheWindow _ (blockTurn_of_codec rfl) (by exact hp) (by exact htime))]
  exact ⟨_, rfl, rfl, rfl, rfl, rfl, rfl⟩

/-! ### The frame buffer after a frame -/

theorem memRead_memWriteAll_of_not_mem {m : Memory} {a i : Nat} (bytes : List Byte) (h : i < a ∨ a + bytes.length ≤ i) :
    memRead (memWriteAll m a bytes) i = memRead m i := by
  induction bytes generalizing m a with
  | nil => rfl
  | cons b bytes ih =>
    rw [List.length_cons] at h
    rw [memWriteAll, ih (by omega), memRead_memWrite_ne _ _ (by omega)]

/-- The bytes written are the bytes read, in a canonical memory. -/
theorem memSlice_memWriteAll {m : Memory} (a : Nat) (bytes : List Byte) (hm : Memory.wf m = true) :
    memSlice (memWriteAll m a bytes) a bytes.length = bytes := by
  induction bytes generalizing m a with
  | nil => rfl
  | cons b bytes ih =>
    rw [List.length_cons, memSlice_succ, memWriteAll, ih _ (Memory.wf_memWrite a b hm),
      memRead_memWriteAll_of_not_mem _ (.inl (Nat.lt_succ_self a)), memRead_memWrite_self _ _ hm]

/-- Settles O32: the three laws of one write. -/
theorem frameBufferReadsWhatWasWritten : Obligations.FrameBufferReadsWhatWasWritten := fun m a b hm =>
  ⟨memRead_memWrite_self a b hm, fun _ h => memRead_memWrite_ne m b h, Memory.wf_memWrite a b hm⟩

/-! ### The reader through noise and a frame

The block moves throughout: the schedule holds only the block's moves, or nothing, which says the same (log 1). -/

theorem blockTurn_of_replicate {s : State} {n : Nat} (h : s.schedule = List.replicate n .codec) :
    blockTurn s = true := by
  cases n with
  | zero => exact blockTurn_of_nil h
  | succ n => exact blockTurn_of_codec h

theorem turnTaken_of_replicate {s : State} {n : Nat} (h : s.schedule = List.replicate n .codec) :
    turnTaken s = { s with schedule := List.replicate (n - 1) .codec } := by
  rw [turnTaken, h, List.tail_replicate]

/-- The hunt discards bytes that are no start marker. -/
theorem run_hunt_noise {s : State} {noise r : List Byte} {n : Nat} (hp : s.phase = .hunt) (hw : s.windowOpen = true)
    (hs : s.schedule = List.replicate n .codec) (hnoise : ∀ b ∈ noise, b ≠ Config.startMark)
    (hr : s.rxq = noise ++ r) :
    run noise.length s =
      .next { s with rxq := r, schedule := List.replicate (n - noise.length) .codec } := by
  induction noise generalizing s n with
  | nil =>
    cases s
    simp_all
  | cons b noise ih =>
    have hb : b ≠ Config.startMark := hnoise b (by simp)
    have hstep := step_hunt_cons (blockTurn_of_replicate hs) hp hw hr
    rw [huntByte_eq, turnTaken_of_replicate hs] at hstep
    simp only [hb, if_false] at hstep
    have hrest := ih (s := { s with rxq := noise ++ r, schedule := List.replicate (n - 1) .codec }) hp hw rfl
      (fun b' h' => hnoise b' (List.mem_cons_of_mem b h')) rfl
    rw [Nat.sub_sub, Nat.add_comm 1] at hrest
    exact (run_succ_of_next _ hstep).trans hrest

/-- The body takes the bytes that are left to `L + 4`, one at each index, and the decode follows. -/
theorem run_body {s : State} {b : Byte} {body r : List Byte} {n : Nat} (hp : s.phase = .body)
    (hw : s.windowOpen = true) (hs : s.schedule = List.replicate n .codec) (hl : s.len.toNat ≤ 64)
    (hlen : s.idx.toNat + (body.length + 1) = s.len.toNat + 4) (hr : s.rxq = b :: (body ++ r)) :
    run (body.length + 1) s = .next { s with
      phase := .decode, idx := s.len + 4, fb := memWriteAll s.fb s.idx.toNat (b :: body), rxq := r,
      schedule := List.replicate (n - (body.length + 1)) .codec } := by
  induction body generalizing s b n with
  | nil =>
    have hlt : s.idx.toNat < 68 := by omega
    have hstep := step_body_cons (blockTurn_of_replicate hs) hp hw hr hlt
    have hidx : s.idx + 1 = s.len + 4 := by
      apply BitVec.eq_of_toNat_eq
      rw [toNat_idx_succ hlt, BitVec.toNat_add]
      simp at hlen ⊢
      omega
    simp only [show s.idx.toNat + 1 = s.len.toNat + 4 from hlen, if_true, hidx, turnTaken_of_replicate hs] at hstep
    exact run_succ_of_next 0 hstep
  | cons b' body ih =>
    rw [List.length_cons] at hlen
    have hlt : s.idx.toNat < 68 := by omega
    have hstep := step_body_cons (blockTurn_of_replicate hs) hp hw hr hlt
    have hmore : ¬ s.idx.toNat + 1 = s.len.toNat + 4 := by omega
    have hsucc := toNat_idx_succ hlt
    simp only [hmore, if_false, turnTaken_of_replicate hs] at hstep
    have hrest := ih (s := { s with
        rxq := b' :: (body ++ r), fb := memWrite s.fb s.idx.toNat b, idx := s.idx + 1, phase := .body,
        schedule := List.replicate (n - 1) .codec }) rfl hw rfl hl (by simp only [hsucc]; omega) rfl
    simp only [hsucc, Nat.sub_sub, Nat.add_comm 1] at hrest
    exact (run_succ_of_next _ hstep).trans hrest

/-- From the hunt through noise and one frame to the decode. -/
theorem run_frame {s : State} {noise body r : List Byte} {l : Byte} {n : Nat} (hp : s.phase = .hunt)
    (hw : s.windowOpen = true) (hs : s.schedule = List.replicate n .codec)
    (hnoise : ∀ b ∈ noise, b ≠ Config.startMark) (hl : l.toNat ≤ 64) (hlen : body.length = l.toNat + 2)
    (hr : s.rxq = noise ++ Config.startMark :: l :: (body ++ r)) :
    run (noise.length + (2 + body.length)) s = .next { s with
      phase := .decode, len := l, idx := l + 4, fb := memWriteAll s.fb 0 (Config.startMark :: l :: body), rxq := r,
      schedule := List.replicate (n - (noise.length + (2 + body.length))) .codec } := by
  have hhunt := run_hunt_noise hp hw hs hnoise hr
  have hmark := step_hunt_cons (s := { s with
      rxq := Config.startMark :: l :: (body ++ r), schedule := List.replicate (n - noise.length) .codec })
    (blockTurn_of_replicate rfl) hp hw rfl
  rw [huntByte_eq, turnTaken_of_replicate rfl] at hmark
  have haccept := step_len_accept (s := { s with
      rxq := l :: (body ++ r), fb := memWrite s.fb 0 Config.startMark, phase := .len,
      schedule := List.replicate (n - noise.length - 1) .codec })
    (blockTurn_of_replicate rfl) rfl hw rfl hl
  rw [turnTaken_of_replicate rfl] at haccept
  match body, hlen with
  | b :: body, hlen =>
    have hbody := run_body (s := { s with
        rxq := b :: (body ++ r), len := l, fb := memWrite (memWrite s.fb 0 Config.startMark) 1 l, idx := 2, phase := .body,
        schedule := List.replicate (n - noise.length - 1 - 1) .codec })
      rfl hw rfl hl (by rw [List.length_cons] at hlen; show 2 + (body.length + 1) = l.toNat + 4; omega) rfl
    have hleft : n - noise.length - 1 - 1 - (body.length + 1) = n - (noise.length + (2 + (b :: body).length)) := by
      rw [List.length_cons]
      omega
    rw [hleft] at hbody
    calc run (noise.length + (2 + (b :: body).length)) s
      _ = run (2 + (b :: body).length) _ := run_add_of_next _ hhunt
      _ = run (body.length + 1 + 1 + 1) _ := by rw [List.length_cons, Nat.add_comm 2]
      _ = run (body.length + 1 + 1) _ := run_succ_of_next _ hmark
      _ = run (body.length + 1) _ := run_succ_of_next _ haccept
      _ = _ := hbody

/-- Settles O33: the buffer is the old one with the frame written from index 0 on. -/
theorem readerAssemblesExactlyTheFrame : Obligations.ReaderAssemblesExactlyTheFrame := by
  intro s noise body rest l hp hs hw hwf hnoise hl hlen hr
  have hrun := run_frame (n := 0) hp hw hs hnoise hl hlen hr
  have hsize : (Config.startMark :: l :: body).length = l.toNat + 4 := by simp [hlen]
  refine ⟨memWriteAll s.fb 0 (Config.startMark :: l :: body), ?_, ?_, Memory.wf_memWriteAll _ _ hwf, fun i hi => ?_⟩
  · rw [Nat.add_assoc, hrun, Nat.zero_sub, List.replicate_zero, ← hs]
  · rw [← hsize]
    exact memSlice_memWriteAll 0 _ hwf
  · exact memRead_memWriteAll_of_not_mem _ (.inr (by omega))

/-! ### A whole scan cycle -/

/-- A tag notification in `FB` is decoded to its fields. -/
theorem frameDecoded_of_frame {s : State} {m : Memory} {f : ResponseFields} {hi lo : Byte} (hwf : Memory.wf m = true)
    (hf : 2 + f.bytes.length ≤ 64) (hfb : s.fb = memWriteAll m 0 (f.frame Config.masks hi lo))
    (hl : s.len = BitVec.ofNat 8 (2 + f.bytes.length)) :
    frameDecoded s = { outcome := .decoded, records := .sep :: f.records, left := 0 } := by
  have hlen : s.len.toNat = 2 + f.bytes.length := by
    rw [hl, BitVec.toNat_ofNat]
    omega
  have hbytes : memSlice s.fb 0 (s.len.toNat + 4) = f.frame Config.masks hi lo := by
    have hsize : (f.frame Config.masks hi lo).length = s.len.toNat + 4 := by
      simp [ResponseFields.frame, responseBytes, hlen]
      omega
    rw [hfb, ← hsize]
    exact memSlice_memWriteAll 0 _ hwf
  have h1 : memRead s.fb 1 = s.len := by
    rw [memSlice_succ, memSlice_succ, ResponseFields.frame, responseBytes] at hbytes
    simp only [List.cons.injEq] at hbytes
    rw [hl, Nat.add_comm 2]
    exact hbytes.2.1
  have hdecode : decodeResponse (memSlice s.fb 0 (s.len.toNat + 4)) =
      .ok (.rspTagNotify (f.flags Config.masks :: f.bytes) hi lo) := by
    rw [hbytes]
    exact decodeResponse_responseBytes hi lo (by simp; omega)
  rw [frameDecoded, (frameInstr_of_decode h1 hdecode).2]
  exact decodeOfBuiltPayloadIsItsFields Config.masks f (by decide) hf

/-- A tag notification's bytes: the start marker, the length, and the body of the payload and the trailer. -/
theorem frame_eq (m : Masks) (f : ResponseFields) (hi lo : Byte) :
    f.frame m hi lo = Config.startMark :: BitVec.ofNat 8 (2 + f.bytes.length) ::
      ((Config.respTag :: f.flags m :: f.bytes) ++ [hi, lo]) := by
  rw [Nat.add_comm]
  rfl

/-- From the hunt through noise and a tag notification to the end of the cycle: its fields are reported. -/
theorem run_tag_notification {s : State} {noise : List Byte} {f : ResponseFields} {hi lo : Byte} (hp : s.phase = .hunt)
    (hw : s.windowOpen = true) (hwf : Memory.wf s.fb = true) (hnoise : ∀ b ∈ noise, b ≠ Config.startMark)
    (hf : 2 + f.bytes.length ≤ 64) (hr : s.rxq = noise ++ f.frame Config.masks hi lo)
    (hs : s.schedule = List.replicate (noise.length + f.bytes.length + 7) .codec) :
    ∃ fb, run (noise.length + f.bytes.length + 7) s = .next { s with
      schedule := [], rxq := [], len := BitVec.ofNat 8 (2 + f.bytes.length), idx := BitVec.ofNat 8 (6 + f.bytes.length),
      fb := fb, sink := s.sink ++ .sep :: f.records, outcome := .decoded, phase := .idle } := by
  have hlen : (BitVec.ofNat 8 (2 + f.bytes.length)).toNat = 2 + f.bytes.length := by
    rw [BitVec.toNat_ofNat]
    omega
  have hread := run_frame (r := []) hp hw hs hnoise (l := BitVec.ofNat 8 (2 + f.bytes.length)) (by omega)
    (body := (Config.respTag :: f.flags Config.masks :: f.bytes) ++ [hi, lo]) (by simp [hlen]; omega)
    (by rw [hr, frame_eq, List.append_nil])
  have hsteps : noise.length + f.bytes.length + 7 =
      noise.length + (2 + ((Config.respTag :: f.flags Config.masks :: f.bytes) ++ [hi, lo]).length) + 1 := by
    simp
    omega
  rw [← frame_eq, hsteps, Nat.add_sub_cancel_left] at hread
  have hidx : BitVec.ofNat 8 (2 + f.bytes.length) + 4 = BitVec.ofNat 8 (6 + f.bytes.length) := by
    apply BitVec.eq_of_toNat_eq
    rw [BitVec.toNat_add, hlen]
    simp
    omega
  refine ⟨memWriteAll s.fb 0 (f.frame Config.masks hi lo), ?_⟩
  rw [hsteps, run_add_of_next 1 hread, run_succ_of_next 0
    (step_decode (blockTurn_of_replicate rfl) rfl (show (BitVec.ofNat 8 (2 + f.bytes.length)).toNat ≤ 64 by omega)),
    frameDecoded_of_frame hwf hf rfl rfl, hidx]
  rfl

/-- From an idle block with `SCAN` on the port to the hunt, `d` milliseconds after the send: acceptance, drain, send, tick. -/
theorem run_scan_to_hunt {s : State} {r : List Word} {d : Millis} {es : List Event} (hp : s.phase = .idle)
    (hreqs : s.reqs = 0x0005 :: r) (hs : s.schedule = .codec :: .codec :: .codec :: .tick d :: es) :
    run 4 s = .next { s with
      schedule := es, reqs := r, illegal := false, outcome := .none, oversizeCnt := 0, cmd := commandFrame,
      txs := s.txs ++ commandFrame.bytes, t0 := s.now, now := s.now + d, rxq := [], phase := .hunt } := by
  have haccept := step_idle_cons (blockTurn_of_codec hs) hp hreqs
  rw [decodeRequest_eq_scan_iff.2 rfl, exec_scan_of_idle (by exact hp), ← commandFrame_eq, turnTaken_of_cons hs] at haccept
  rw [run_succ_of_next _ haccept, run_succ_of_next _ (step_drain (blockTurn_of_codec rfl) rfl),
    run_succ_of_next _ (step_send (blockTurn_of_codec rfl) rfl),
    run_succ_of_next 0 (step_tick rfl)]
  rfl

/-- Settles O55: the cycle begins, the bytes arrive while the block hunts, and the reader and the decode do the rest. -/
theorem scanCycleReportsTheTag : Obligations.ScanCycleReportsTheTag := by
  intro s r d noise f hi lo hp hreqs hwf hd hnoise hf hsched
  have hstart := run_scan_to_hunt hp hreqs (d := d)
    (es := (noise ++ f.frame Config.masks hi lo).map Event.rxByte ++
      List.replicate (noise.length + f.bytes.length + 7) Event.codec) (by rw [hsched]; rfl)
  have hlen : s.schedule.length =
      4 + ((noise ++ f.frame Config.masks hi lo).length + (noise.length + f.bytes.length + 7)) := by
    simp [hsched]
    omega
  rw [hlen, run_add_of_next _ hstart, run_add_of_next _ (run_receive rfl)]
  have hopen : s.now + d - s.now = d := by simp
  obtain ⟨fb, hrun⟩ := run_tag_notification (s := { s with
      schedule := List.replicate (noise.length + f.bytes.length + 7) .codec, reqs := r, illegal := false,
      outcome := .none, oversizeCnt := 0, cmd := commandFrame, txs := s.txs ++ commandFrame.bytes, t0 := s.now,
      now := s.now + d, rxq := noise ++ f.frame Config.masks hi lo, phase := .hunt })
    rfl ((windowOpen_iff _).2 (by simpa only [hopen] using hd)) hwf hnoise hf rfl rfl
  refine ⟨fb, hrun.trans ?_⟩
  rw [commandFrame_eq]
  rfl

end Sys2Proof.Machine
end

section
/-! SUPPORT. The laws of the checksum (40_checksum.md section 2): linearity, the residue, the reference value, the requests of
`CRC16`, and the settled statements about them. -/

namespace Sys2Proof.Machine

open Sys2Proof.Safety

/-! ### Linearity -/

/-- What the bit that leaves feeds back. -/
def feedback (b : Bool) : Word := if b then Config.crcPoly else 0#16

theorem feedback_xor (a b : Bool) : feedback (a ^^ b) = feedback a ^^^ feedback b := by
  revert a b
  decide

/-- A round by its two parts: the shift, and the feedback of the bit that left. -/
theorem crcRound_eq_xor (acc : Word) : crcRound acc = acc <<< 1 ^^^ feedback acc.msb := by
  unfold crcRound feedback
  split <;> simp

theorem crcRound_xor (a b : Word) : crcRound (a ^^^ b) = crcRound a ^^^ crcRound b := by
  simp only [crcRound_eq_xor, BitVec.shiftLeft_xor_distrib, BitVec.msb_xor, feedback_xor]
  ac_rfl

theorem crcRounds_xor (n : Nat) (a b : Word) : crcRounds n (a ^^^ b) = crcRounds n a ^^^ crcRounds n b := by
  induction n generalizing a b with
  | zero => rfl
  | succ n ih => rw [crcRounds, crcRound_xor, ih]; rfl

/-- A byte in the high byte of a word. -/
def highByte (b : Byte) : Word := b.setWidth 16 <<< 8

theorem highByte_xor (a b : Byte) : highByte (a ^^^ b) = highByte a ^^^ highByte b := by
  simp [highByte, BitVec.shiftLeft_xor_distrib, BitVec.setWidth_xor]

theorem crcStep_eq (acc : Word) (b : Byte) : crcStep acc b = crcRounds 8 (acc ^^^ highByte b) := rfl

/-- Settles O16: each round is linear, and so is the exclusive-or before them. -/
theorem crcStepIsLinear : Obligations.CrcStepIsLinear := by
  intro a1 a2 b1 b2
  have hin : a1 ^^^ a2 ^^^ (highByte b1 ^^^ highByte b2) = (a1 ^^^ highByte b1) ^^^ (a2 ^^^ highByte b2) := by
    ac_rfl
  rw [crcStep_eq, crcStep_eq, crcStep_eq, highByte_xor, hin, crcRounds_xor]

/-! ### The residue -/

theorem crcFold_append (acc : Word) (s t : List Byte) : crcFold acc (s ++ t) = crcFold (crcFold acc s) t :=
  List.foldl_append

/-- A word is its two bytes, the high one moved up. -/
theorem highByte_xor_loByte (w : Word) : highByte (hiByte w) ^^^ (loByte w).setWidth 16 = w := by
  apply BitVec.eq_of_getLsbD_eq
  intro i hi
  simp only [highByte, hiByte, loByte, BitVec.getLsbD_xor, BitVec.getLsbD_shiftLeft, BitVec.getLsbD_setWidth,
    BitVec.getLsbD_extractLsb', hi]
  by_cases h : i < 8
  · simp [h]
  · have h8 : i - 8 < 8 := by omega
    have hsub : 8 + (i - 8) = i := by omega
    have h16 : i - 8 < 16 := by omega
    simp [h, h8, h16, hsub]

theorem hiByte_xor (a b : Word) : hiByte (a ^^^ b) = hiByte a ^^^ hiByte b := BitVec.extractLsb'_xor

theorem loByte_xor (a b : Word) : loByte (a ^^^ b) = loByte a ^^^ loByte b := BitVec.extractLsb'_xor

/-- A bit of the low byte reaches the top only after eight rounds, so they only shift it. -/
theorem crcRounds_eight_low (b : Byte) : crcRounds 8 (b.setWidth 16) = highByte b := by
  revert b
  decide +kernel

/-- The complement of an accumulator's high byte leaves its low byte below a high byte of ones. -/
theorem xor_highByte_complement (acc : Word) :
    acc ^^^ highByte (hiByte (acc ^^^ 0xFFFF)) = 0xFF00 ^^^ (loByte acc).setWidth 16 := by
  have hones : highByte (hiByte 0xFFFF) = 0xFF00 := by decide
  rw [hiByte_xor, highByte_xor, hones]
  calc acc ^^^ (highByte (hiByte acc) ^^^ 0xFF00)
    _ = highByte (hiByte acc) ^^^ (loByte acc).setWidth 16 ^^^ (highByte (hiByte acc) ^^^ 0xFF00) := by
      rw [highByte_xor_loByte]
    _ = highByte (hiByte acc) ^^^ highByte (hiByte acc) ^^^ (0xFF00 ^^^ (loByte acc).setWidth 16) := by ac_rfl
    _ = 0xFF00 ^^^ (loByte acc).setWidth 16 := by rw [BitVec.xor_self, BitVec.zero_xor]

/-- From any accumulator, its own complement as two bytes leads to one value: the first byte cancels the high byte, and the
second what the eight rounds have moved up of the low one. -/
theorem crcStep_complement (acc : Word) :
    crcStep (crcStep acc (hiByte (acc ^^^ 0xFFFF))) (loByte (acc ^^^ 0xFFFF)) = 0x1D0F := by
  have hones : highByte (loByte 0xFFFF) = 0xFF00 := by decide
  rw [crcStep_eq, crcStep_eq, xor_highByte_complement, crcRounds_xor 8 0xFF00, crcRounds_eight_low, loByte_xor, highByte_xor,
    hones]
  calc crcRounds 8 (crcRounds 8 0xFF00 ^^^ highByte (loByte acc) ^^^ (highByte (loByte acc) ^^^ 0xFF00))
    _ = crcRounds 8 (highByte (loByte acc) ^^^ highByte (loByte acc) ^^^ (crcRounds 8 0xFF00 ^^^ 0xFF00)) := by
      congr 1
      ac_rfl
    _ = 0x1D0F := by
      rw [BitVec.xor_self, BitVec.zero_xor]
      decide +kernel

/-- Settles O17: the bytes that follow are the complement of the accumulator after `s`. -/
theorem checksumResidueIsConstant : Obligations.ChecksumResidueIsConstant := by
  intro s
  have hfold : crcFold Config.crcInitVal (s ++ [hiByte (checksum s), loByte (checksum s)]) = 0x1D0F := by
    rw [crcFold_append]
    exact crcStep_complement _
  rw [checksum, hfold]
  rfl

/-! ### The requests of `CRC16` -/

/-- An idle block with nothing scheduled takes the request on its port. -/
theorem step_request_of_nil {s : State} {i : Instr} {w : Word} {r : List Word} (hp : s.phase = .idle)
    (hs : s.schedule = []) (hi : WellFormed i) (hw : encode i = .request w) (hr : s.reqs = w :: r) :
    step s = exec i { s with reqs := r } := by
  rw [step_idle_cons (blockTurn_of_nil hs) hp hr, turnTaken_of_nil hs, decodeRequest_of_encode hi hw]

/-- The updates step the accumulator through the bytes. -/
theorem run_crcUpdates {s : State} {bytes : List Byte} {r : List Word} (hp : s.phase = .idle) (hs : s.schedule = [])
    (hill : s.illegal = false) (hr : s.reqs = bytes.flatMap (fun b => requestWords (.crcUpdate b)) ++ r) :
    run bytes.length s = .next { s with reqs := r, crcAcc := crcFold s.crcAcc bytes } := by
  induction bytes generalizing s with
  | nil =>
    obtain rfl : s.reqs = r := hr
    rfl
  | cons b bytes ih =>
    have hstep := step_request_of_nil hp hs (i := .crcUpdate b) rfl rfl hr
    rw [exec_crcUpdate_of_idle b (by exact hp), ← hill] at hstep
    exact (run_succ_of_next _ hstep).trans (ih hp hs hill rfl)

/-- Settles O19: the initial value, the updates, and the complement into `RESULT`. -/
theorem crc16LeavesChecksumInResult : Obligations.Crc16LeavesChecksumInResult := by
  intro s bytes r hp hs hr
  have hinit := step_request_of_nil hp hs (i := .crcInit) rfl rfl
    (r := bytes.flatMap (fun b => requestWords (.crcUpdate b)) ++ (requestWords .crcFinal ++ r)) (by
      rw [hr, Asm.words, crc16Words, List.append_assoc, List.append_assoc]; rfl)
  rw [exec_crcInit_of_idle (by exact hp)] at hinit
  have hupdates := run_crcUpdates (s := { s with
      reqs := bytes.flatMap (fun b => requestWords (.crcUpdate b)) ++ (requestWords .crcFinal ++ r), crcAcc := 0xFFFF,
      illegal := false }) (r := requestWords .crcFinal ++ r) hp hs rfl rfl
  have hfinal := step_request_of_nil (s := { s with
      reqs := requestWords .crcFinal ++ r, crcAcc := crcFold 0xFFFF bytes, illegal := false })
    hp hs (i := .crcFinal) rfl rfl rfl
  rw [exec_crcFinal_of_idle (by exact hp)] at hfinal
  have hacc : checksum bytes ^^^ 0xFFFF = crcFold 0xFFFF bytes := by
    rw [checksum, BitVec.xor_assoc]
    exact BitVec.xor_zero
  have hres : checksum bytes = ~~~crcFold 0xFFFF bytes := xor_crcXorOut _
  rw [run_succ_of_next _ hinit, run_add_of_next 1 hupdates, run_succ_of_next 0 hfinal, hacc, hres]
  rfl

/-! ### The reference values -/

/-- Settles O18: the trace is evaluated. -/
theorem referenceChecksumTrace : Obligations.ReferenceChecksumTrace := by
  unfold Obligations.ReferenceChecksumTrace
  decide +kernel

/-- Settles O21: the frame is evaluated. -/
theorem commandFrameIsConstant : Obligations.CommandFrameIsConstant := by
  unfold Obligations.CommandFrameIsConstant
  rw [commandFrame_eq]
  decide +kernel

end Sys2Proof.Machine
end

section
/-! SUPPORT. Text (30_encoding.md rule R74, 43_decoder.md rule R185): the hexadecimal text of bytes, the lines and tokens of a
program's text, the values its operands write, and the settled statements about them. -/

namespace Sys2Proof.Machine

open Sys2Proof.Safety

/-! ### Hexadecimal text -/

/-- The sixteen digits lie in the table, so what is read beyond it does not matter. -/
theorem hexDigit_eq_getD (n : BitVec 4) :
    hexDigit n = ['0', '1', '2', '3', '4', '5', '6', '7', '8', '9', 'A', 'B', 'C', 'D', 'E', 'F'].getD n.toNat '?' := by
  revert n
  decide

theorem hexDigit_injective : Function.Injective hexDigit := by
  intro m n
  revert m n
  decide +kernel

theorem toNat_highNibble (b : Byte) : (b.extractLsb' 4 4).toNat = b.toNat / 16 := by
  have hb := b.isLt
  simp only [BitVec.extractLsb'_toNat, Nat.shiftRight_eq_div_pow]
  omega

theorem toNat_lowNibble (b : Byte) : (b.extractLsb' 0 4).toNat = b.toNat % 16 := by
  simp only [BitVec.extractLsb'_toNat, Nat.shiftRight_eq_div_pow]
  omega

/-- The two digits determine the two nibbles, and these the byte. -/
theorem hexByte_injective : Function.Injective hexByte := by
  intro a b h
  simp only [hexByte, List.cons.injEq, and_true] at h
  have hhi := congrArg BitVec.toNat (hexDigit_injective h.1)
  have hlo := congrArg BitVec.toNat (hexDigit_injective h.2)
  rw [toNat_highNibble, toNat_highNibble] at hhi
  rw [toNat_lowNibble, toNat_lowNibble] at hlo
  apply BitVec.eq_of_toNat_eq
  omega

theorem hexText_cons (b : Byte) (s : List Byte) : hexText (b :: s) = hexByte b ++ hexText s := rfl

theorem length_hexText (s : List Byte) : (hexText s).length = 2 * s.length := by
  induction s with
  | nil => rfl
  | cons b s ih =>
    rw [hexText_cons, List.length_append, ih, List.length_cons]
    simp only [hexByte, List.length_cons, List.length_nil]
    omega

theorem hexText_injective : Function.Injective hexText := by
  intro s t h
  induction s generalizing t with
  | nil =>
    have hlen := congrArg List.length h
    rw [length_hexText, length_hexText] at hlen
    exact (List.eq_nil_of_length_eq_zero (by simpa using hlen.symm)).symm
  | cons a s ih =>
    cases t with
    | nil => cases h
    | cons b t =>
      obtain ⟨hbyte, htext⟩ := List.append_inj h rfl
      rw [hexByte_injective hbyte, ih htext]

/-- Settles O46: the digits of a byte are those of its two nibbles, and they determine it. -/
theorem hexTextDeterminesBytes : Obligations.HexTextDeterminesBytes := by
  refine ⟨fun s => List.flatMap_congr fun b _ => ?_, length_hexText, fun _ _ h => hexText_injective h⟩
  rw [hexByte, hexDigit_eq_getD, hexDigit_eq_getD, toNat_highNibble, toNat_lowNibble]

/-! ### The numbers that operands write -/

theorem digitValue_nibbleChar (n : Nat) : digitValue 16 (nibbleChar n) = some (n % 16) := by
  have hall : ∀ k < 16, digitValue 16 (nibbleChar k) = some k := by decide
  have hmod : nibbleChar n = nibbleChar (n % 16) := by rw [nibbleChar, nibbleChar, Nat.mod_mod]
  rw [hmod]
  exact hall _ (Nat.mod_lt n (by decide))

theorem digitsValue_nibbleChar (acc n : Nat) (r : List Char) :
    digitsValue 16 acc (nibbleChar n :: r) = digitsValue 16 (acc * 16 + n % 16) r := by
  rw [digitsValue, digitValue_nibbleChar]

/-- A hexadecimal number in range is read as its value. -/
theorem parseNumber_hex {width : Nat} {c : Char} {r : List Char} (v : BitVec width)
    (h : digitsValue 16 0 (c :: r) = some v.toNat) : parseNumber width ('0' :: 'x' :: c :: r) = some v := by
  simp only [parseNumber, h, v.isLt, if_true, BitVec.ofNat_toNat, BitVec.setWidth_eq]

theorem parseNumber_byteText (b : Byte) : parseNumber 8 (byteText b) = some b := by
  apply parseNumber_hex
  rw [digitsValue_nibbleChar, digitsValue_nibbleChar, digitsValue]
  have hb := b.isLt
  congr 1
  omega

theorem parseNumber_wordText (w : Word) : parseNumber 16 (wordText w) = some w := by
  apply parseNumber_hex
  rw [digitsValue_nibbleChar, digitsValue_nibbleChar, digitsValue_nibbleChar, digitsValue_nibbleChar, digitsValue]
  have hw := w.isLt
  congr 1
  omega

theorem parseBytes_map_byteText (bytes : List Byte) : parseBytes (bytes.map byteText) = some bytes := by
  induction bytes with
  | nil => rfl
  | cons b bytes ih => rw [List.map_cons, parseBytes, parseNumber_byteText, ih]

/-! ### Tokens -/

/-- The token begun, if any character of it is there. -/
def begun (cur : List Char) : List (List Char) := if cur.isEmpty then [] else [cur]

theorem tokensFrom_nil (cur : List Char) : tokensFrom cur [] = begun cur := rfl

/-- A gap ends the token begun. -/
theorem tokensFrom_gap {c : Char} (cur r : List Char) (h : isGap c = true) :
    tokensFrom cur (c :: r) = begun cur ++ tokensFrom [] r := by
  rw [tokensFrom, if_pos h, begun]
  split <;> rfl

/-- Characters that are no gaps go on with the token begun. -/
theorem tokensFrom_append {w : List Char} (cur r : List Char) (h : ∀ c ∈ w, isGap c = false) :
    tokensFrom cur (w ++ r) = tokensFrom (cur ++ w) r := by
  induction w generalizing cur with
  | nil => simp
  | cons c w ih =>
    have hc : ¬ isGap c = true := by simp [h c]
    rw [List.cons_append, tokensFrom, if_neg hc, ih _ fun c' h' => h c' (List.mem_cons_of_mem c h'), List.append_assoc]
    rfl

/-- A character that neither begins a comment nor ends a line. -/
def staysInLine (c : Char) : Bool := c != ';' && c != '\n'

theorem nibbleChar_inside (n : Nat) : isGap (nibbleChar n) = false ∧ staysInLine (nibbleChar n) = true := by
  have hall : ∀ k < 16, isGap (nibbleChar k) = false ∧ staysInLine (nibbleChar k) = true := by decide
  have hmod : nibbleChar n = nibbleChar (n % 16) := by rw [nibbleChar, nibbleChar, Nat.mod_mod]
  rw [hmod]
  exact hall _ (Nat.mod_lt n (by decide))

/-- An operand's text is one token inside its line. -/
theorem byteText_inside (b : Byte) : ∀ c ∈ byteText b, isGap c = false ∧ staysInLine c = true := by
  simp only [byteText, List.forall_mem_cons, nibbleChar_inside, and_true]
  simp [isGap, staysInLine]

theorem wordText_inside (w : Word) : ∀ c ∈ wordText w, isGap c = false ∧ staysInLine c = true := by
  simp only [wordText, List.forall_mem_cons, nibbleChar_inside, and_true]
  simp [isGap, staysInLine]

theorem operandsText_cons_cons (b b' : Byte) (r : List Byte) :
    operandsText (b :: b' :: r) = ' ' :: (byteText b ++ ',' :: operandsText (b' :: r)) := rfl

/-- The tokens of operands after a token begun: that token, and one for each operand. -/
theorem tokensFrom_operandsText (cur : List Char) (bytes : List Byte) :
    tokensFrom cur (operandsText bytes) = begun cur ++ bytes.map byteText := by
  have hgap (b : Byte) : ∀ c ∈ byteText b, isGap c = false := fun c hc => (byteText_inside b c hc).1
  have token (b : Byte) (r : List Char) : tokensFrom [] (byteText b ++ r) = tokensFrom (byteText b) r :=
    tokensFrom_append [] r (hgap b)
  induction bytes generalizing cur with
  | nil => simp [operandsText, tokensFrom_nil]
  | cons b bytes ih =>
    cases bytes with
    | nil =>
      have hlast := token b []
      rw [List.append_nil] at hlast
      rw [operandsText, tokensFrom_gap _ _ rfl, hlast]
      rfl
    | cons b' bytes =>
      rw [operandsText_cons_cons, tokensFrom_gap _ _ rfl, token, tokensFrom_gap _ _ rfl, ih]
      rfl

theorem operandsText_inside (bytes : List Byte) : ∀ c ∈ operandsText bytes, staysInLine c = true := by
  have hbyte (b : Byte) : ∀ c ∈ byteText b, staysInLine c = true := fun c hc => (byteText_inside b c hc).2
  induction bytes with
  | nil => exact fun c hc => absurd hc List.not_mem_nil
  | cons b bytes ih =>
    cases bytes with
    | nil => exact List.forall_mem_cons.2 ⟨rfl, hbyte b⟩
    | cons b' bytes =>
      rw [operandsText_cons_cons]
      exact List.forall_mem_cons.2 ⟨rfl, List.forall_mem_append.2 ⟨hbyte b, List.forall_mem_cons.2 ⟨rfl, ih⟩⟩⟩

/-! ### Lines -/

theorem beforeComment_eq_self {t : List Char} (h : ∀ c ∈ t, staysInLine c = true) : beforeComment t = t := by
  induction t with
  | nil => rfl
  | cons c t ih =>
    obtain ⟨hc, ht⟩ := List.forall_mem_cons.1 h
    have hne : c ≠ ';' := by
      rintro rfl
      cases hc
    rw [beforeComment, if_neg hne, ih ht]

/-- A line end ends the line begun. -/
theorem linesFrom_append {t : List Char} (cur r : List Char) (h : ∀ c ∈ t, staysInLine c = true) :
    linesFrom cur (t ++ '\n' :: r) = (cur ++ t) :: linesFrom [] r := by
  induction t generalizing cur with
  | nil => simp [linesFrom]
  | cons c t ih =>
    obtain ⟨hc, ht⟩ := List.forall_mem_cons.1 h
    have hne : c ≠ '\n' := by
      rintro rfl
      cases hc
    rw [List.cons_append, linesFrom, if_neg hne, ih _ ht, List.append_assoc]
    rfl

/-! ### Statements -/

/-- The mnemonics, each one token inside its line. -/
theorem mnemonic_inside : ∀ kw ∈ [kwCrcInit, kwCrcUpdate, kwCrcFinal, kwEncode, kwScan, kwWord, kwCrc16],
    ∀ c ∈ kw, isGap c = false ∧ staysInLine c = true := by
  simp [isGap, staysInLine, kwCrcInit, kwCrcUpdate, kwCrcFinal, kwEncode, kwScan, kwWord, kwCrc16]

/-- The tokens of a statement's text: the mnemonic and the operands' texts. -/
def Asm.tokens : Asm → List Char × List (List Char)
  | .crcInit => (kwCrcInit, [])
  | .crcUpdate b => (kwCrcUpdate, [byteText b])
  | .crcFinal => (kwCrcFinal, [])
  | .encode => (kwEncode, [])
  | .scan => (kwScan, [])
  | .word w => (kwWord, [wordText w])
  | .crc16 bytes => (kwCrc16, bytes.map byteText)

theorem parseTokens_tokens (a : Asm) : parseTokens a.tokens.1 a.tokens.2 = some a := by
  cases a with
  | crcUpdate b => exact congrArg (Option.map Asm.crcUpdate) (parseNumber_byteText b)
  | word w => exact congrArg (Option.map Asm.word) (parseNumber_wordText w)
  | crc16 bytes => exact congrArg (Option.map Asm.crc16) (parseBytes_map_byteText bytes)
  | _ => rfl

/-- The tokens of a line that begins with a mnemonic are those after the mnemonic as the token begun. -/
theorem tokensFrom_mnemonic {kw : List Char} (r : List Char)
    (h : kw ∈ [kwCrcInit, kwCrcUpdate, kwCrcFinal, kwEncode, kwScan, kwWord, kwCrc16]) :
    tokensFrom [] (kw ++ r) = tokensFrom kw r :=
  tokensFrom_append [] r fun c hc => (mnemonic_inside kw h c hc).1

theorem tokensFrom_text (a : Asm) : tokensFrom [] a.text = a.tokens.1 :: a.tokens.2 := by
  cases a with
  | crcUpdate b => exact (tokensFrom_mnemonic _ (by simp)).trans (tokensFrom_operandsText kwCrcUpdate [b])
  | crc16 bytes => exact (tokensFrom_mnemonic _ (by simp)).trans (tokensFrom_operandsText kwCrc16 bytes)
  | word w =>
    have hword : tokensFrom [] (wordText w) = [wordText w] :=
      (List.append_nil (wordText w) ▸ tokensFrom_append [] [] fun c hc => (wordText_inside w c hc).1)
    rw [Asm.text, tokensFrom_mnemonic _ (by simp), tokensFrom_gap _ _ rfl, hword]
    rfl
  | _ => rfl

theorem text_inside (a : Asm) : ∀ c ∈ a.text, staysInLine c = true := by
  have hkw {kw : List Char} (h : kw ∈ [kwCrcInit, kwCrcUpdate, kwCrcFinal, kwEncode, kwScan, kwWord, kwCrc16]) :
      ∀ c ∈ kw, staysInLine c = true := fun c hc => (mnemonic_inside kw h c hc).2
  cases a with
  | crcUpdate b => exact List.forall_mem_append.2 ⟨hkw (by simp), operandsText_inside [b]⟩
  | crc16 bytes => exact List.forall_mem_append.2 ⟨hkw (by simp), operandsText_inside bytes⟩
  | word w =>
    exact List.forall_mem_append.2
      ⟨hkw (by simp), List.forall_mem_cons.2 ⟨rfl, fun c hc => (wordText_inside w c hc).2⟩⟩
  | _ => exact hkw (by simp [Asm.text])

theorem parseLine_text (a : Asm) : parseLine a.text = some [a] := by
  rw [parseLine, beforeComment_eq_self (text_inside a), tokensFrom_text]
  simp only [parseTokens_tokens, Option.map_some]

theorem parseProgram_cons (a : Asm) (p : List Asm) :
    parseProgram (programText (a :: p)) = (parseProgram (programText p)).map (a :: ·) := by
  have hlines : linesFrom [] (programText (a :: p)) = a.text :: linesFrom [] (programText p) := by
    rw [programText, List.flatMap_cons, List.append_assoc]
    exact linesFrom_append [] _ (text_inside a)
  rw [parseProgram, parseProgram, hlines, parseLines, parseLine_text]
  cases parseLines (linesFrom [] (programText p)) <;> rfl

/-- Settles O60: line by line, each line's tokens read as the statement they came from. -/
theorem assemblyTextReadsBack : Obligations.AssemblyTextReadsBack := by
  intro p
  induction p with
  | nil => rfl
  | cons a p ih => rw [parseProgram_cons, ih]; rfl

end Sys2Proof.Machine
end
